-- ==== Sys2Proof/Word.lean ====
section
/-! DEFINITION. Bits and bytes.

A bit is a value in {0, 1} and nothing else (00_scope.md R8: "There is no X, Z or other metavalue").
A bit vector `v[W-1:0]` is a `BitVec W` whose bit `v[k]` is `v.getLsbD k` (R9). -/

namespace Sys2Proof

/-- 00_scope.md R8: a value in {0, 1}; `true` is 1. -/
abbrev Bit := Bool

/-- The unit in which the opcode table's words are laid out (the table's one word is one bit of one byte). -/
abbrev Byte := BitVec 8

end Sys2Proof
end

