-- ==== Sys2Proof/Config.lean ====
section
/-! DEFINITION. What is fixed when a block is built: the elaboration parameters, and the names under
which a build is refused.

The CORE's one parameter is the payload width N (00_scope.md R4). The shared engine takes an array
length L_e of its own (R7), and a free-standing decoder may be built from a codeword length L instead
of N (43_decoder.md R121, 92_eei_decisions.md D2). -/

namespace Sys2Proof

/-- 60_exceptions.md R131: the named refusals of an elaboration parameter. Nothing raises one while
the block runs (00_scope.md R17). -/
inductive InvalidInput where
  /-- `INV_EMPTY_PAYLOAD`: building HAM_ENC or HAM_DEC, or PARITYCOUNT, with `N < 1`. -/
  | invEmptyPayload
  /-- `INV_CODEWORD_LENGTH`: building a decoder from a length L that is not valid (R58). -/
  | invCodewordLength
  /-- `INV_SEARCH_BOUND`: PARITYCOUNT finds no r within its bound; unreachable (R71). -/
  | invSearchBound
deriving DecidableEq, Repr

/-- The elaboration parameters of the three modules. No operation changes them (10_state.md R22, R30).
They are held as chosen, valid or not: a refused choice builds no block, and an operation of that
block then answers the refusal (60_exceptions.md R131). -/
structure Params where
  /-- N, the payload width of the CORE's HAM_ENC and HAM_DEC (00_scope.md R4). -/
  n : Nat
  /-- `none`: HAM_DEC is the CORE's, built from N. `some l`: it is a free-standing decoder built from
  the codeword length l (43_decoder.md R121). -/
  decLen : Option Nat
  /-- L_e, the array length of the free-standing engine HAM_SYND (00_scope.md R7). -/
  le : Nat
deriving DecidableEq, Repr

end Sys2Proof
end

