-- ==== Sys2Proof/Machine/ParityCount.lean ====
section
/-! DEFINITION. PARITYCOUNT (40_parity_count.md), evaluated when a block is elaborated. -/

namespace Sys2Proof.Machine

/-- 40_parity_count.md R70: the linear search over `r` in `0 .. n+1` (the bound is R71's) for the first
`r` with `2^r >= r + n + 1`. -/
def paritySearch (n : Nat) : Option Nat :=
  (List.range (n + 2)).find? fun r => decide (r + n + 1 ≤ 2 ^ r)

/-- 40_parity_count.md R70: PARITYCOUNT(n), with its refusals. -/
def parityCountOrRefuse (n : Nat) : Except InvalidInput Nat :=
  if n < 1 then .error .invEmptyPayload
  else
    match paritySearch n with
    | some r => .ok r
    | none => .error .invSearchBound

/-- R = PARITYCOUNT(N), the constant of a built block (00_scope.md R5). A refused parameter builds no
block and has no R; the 0 answered there only gives the ports of no block a width. -/
def parityCount (n : Nat) : Nat :=
  match parityCountOrRefuse n with
  | .ok r => r
  | .error _ => 0

end Sys2Proof.Machine
end

