-- ==== Sys2Proof/Machine/Positions.lean ====
section
/-! DEFINITION. Positions of a codeword: the notation of 00_scope.md R10-R12 and the forward order of
20_memory.md R41. -/

namespace Sys2Proof.Machine

/-- 00_scope.md R11, in its second form: `p >= 1` and `p & (p-1) = 0`. -/
def isPow2 (p : Nat) : Bool :=
  decide (1 ≤ p) && decide (p &&& (p - 1) = 0)

/-- 00_scope.md R12: `bit(p, j) = floor(p / 2^j) mod 2`. -/
def posBit (p j : Nat) : Bit :=
  decide (p / 2 ^ j % 2 = 1)

/-- The positions `1 .. l` of an l-bit word, increasing. Position p is vector bit `p - 1` (R10). -/
def positions (l : Nat) : List Nat :=
  List.range' 1 l

/-- 20_memory.md R41: forward position f of an l-bit codeword is position `l - f + 1`. On `1 .. l` the map
is its own inverse. DESIGN CHOICE (notes/assumptions/12.md): R41 gives no forward position outside `1 .. l`;
for f = 0 this answers `l + 1`, and for f > l it answers 0, neither of which is a position. -/
def forwardPos (l f : Nat) : Nat :=
  l + 1 - f

end Sys2Proof.Machine
end

