-- ==== Sys2Proof/Machine/Widths.lean ====
section
/-! DEFINITION. The widths elaboration fixes (70_reset_and_hazards.md R151 step 3), and the valid
codeword lengths. -/

namespace Sys2Proof.Machine

/-- 00_scope.md R6: the codeword width `L = N + R`. -/
def codeLen (n : Nat) : Nat :=
  n + parityCount n

/-- 30_encoding.md R58: a length is valid exactly when `L >= 3` and L is not a power of two. -/
def validLength (l : Nat) : Bool :=
  decide (3 ≤ l) && !isPow2 l

/-- 30_encoding.md R58: the payload width of a valid length, `n = L - R` with `R = floor(log2 L) + 1`. -/
def payloadOfLength (l : Nat) : Nat :=
  l - (Nat.log2 l + 1)

/-- 41_syndrome_engine.md R81: `R_e(L_e)`, the number of `j >= 0` with `2^j < L_e` (each such j is below
L_e). -/
def indexCount (le : Nat) : Nat :=
  (List.range le).countP fun j => decide (2 ^ j < le)

/-- The payload width of HAM_DEC: N, or the n of the length it was built from (43_decoder.md R121). -/
def decoderN (p : Params) : Nat :=
  match p.decLen with
  | none => p.n
  | some l => payloadOfLength l

end Sys2Proof.Machine
end

