-- ==== Sys2Proof/Syntax.lean ====
section
/-! DEFINITION. The operations of the opcode table, the module each drives, and a transaction: one use
of the CORE by its integrator. -/

namespace Sys2Proof

/-- The rows of opcode_table.json (30_encoding.md R62). An operation has no operand of its own: it
reads the input ports of its module (10_state.md R24-R26). PARITYCOUNT has no row: it runs only at
elaboration. -/
inductive Instr where
  /-- SYND.COLLECT: HAM_SYND with `mode = 0` (41_syndrome_engine.md R85). -/
  | syndCollect
  /-- SYND.WRITE: HAM_SYND with `mode = 1` (41_syndrome_engine.md R84). -/
  | syndWrite
  /-- ENCODE: HAM_ENC on `d` (42_encoder.md R100). -/
  | encode
  /-- DECODE: HAM_DEC on `rx` (43_decoder.md R110). -/
  | decode
deriving DecidableEq, Repr

/-- The modules an integrator can drive (10_state.md R24-R26); the table's column "unit". Which module
is driven is what selects ENCODE and DECODE (30_encoding.md R62): no bit pattern does. -/
inductive HwUnit where
  | hamSynd
  | hamEnc
  | hamDec
deriving DecidableEq, Repr

/-- 30_encoding.md R62: where each operation runs. -/
def Instr.unit : Instr → HwUnit
  | .syndCollect => .hamSynd
  | .syndWrite => .hamSynd
  | .encode => .hamEnc
  | .decode => .hamDec

/-- One use of the CORE (30_encoding.md R63: "drive HAM_ENC.`d`, then read `cw`"), as the integrator
presents it at the model's boundary. DESIGN CHOICE, notes/assumptions/2.md: the CORE itself has no
queue and fetches nothing (10_state.md R20, R21). -/
structure Transaction where
  /-- The module driven. -/
  unit : HwUnit
  /-- The opcode table's word: bit 0 of its one byte is the engine's mode bit. -/
  word : List Byte
  /-- The word driven onto the module's input port (`d`, `rx` or `a`), in the written form of R61, most
  significant bit first; `none` leaves the port carrying what it carries. -/
  input : Option (List Char)
deriving DecidableEq, Repr

end Sys2Proof
end

