-- ==== Sys2Proof/Machine/State.lean ====
section
/-! DEFINITION. The state of the model: the elaboration parameters, the ports of the three modules
(10_state.md R24-R26) and the integrator's transactions still to be made.

The CORE itself stores nothing (R20). A port's field is what the port carries after the last
evaluation; that every output is its function of the inputs is the invariant `Safety.Settled`. Each
word has its port's exact width in its type, so that a bit that is neither 0 nor 1, or a word of
another width, has no representation here (R8, R31, 20_memory.md R45). -/

namespace Sys2Proof.Machine

/-- What stops the machine while it runs: nothing does. 60_exceptions.md R130: "no operation raises an
exception, trap or fault"; R140: "no run-time operation faults". Safe: no fault can be answered. -/
inductive Fault where
deriving DecidableEq, Repr

/-- Why a transaction's word selects no operation of its module. -/
inductive DecodeError where
  /-- There is no word: the transaction's byte list is empty. Raised by `decode`. -/
  | noWord
  /-- The word's mode bit is not the value the module's engine has tied (10_state.md R26): it is no row
  of opcode_table.json for that module. Raised by `decode`. -/
  | tiedMode
  /-- Bytes follow the one-byte word. Raised by `fetch`. -/
  | trailingBytes
deriving DecidableEq, Repr

/-- Why no evaluation takes place (60_exceptions.md R140: at elaboration or at the model's boundary). -/
inductive Refusal where
  /-- An operation without a meaning yet; no arm of `exec` answers it. Safe. -/
  | notModelled (mnemonic : String)
  /-- The driven module was never built: its elaboration parameter is refused (R131). Raised by
  `onBuilt`, `drive` and `idle`. Safe: it is the spec's own refusal. -/
  | invalidInput (why : InvalidInput)
  /-- HAM_SYND with `L_e < 1`, which 00_scope.md R7 does not admit and R131 does not name. Raised by
  `onBuilt`, `drive` and `idle`. Safe (notes/assumptions/5.md). -/
  | engineLength
  /-- A written word holds a character other than `0` or `1` (R132). Raised by `drive`. Safe: the
  spec's own refusal at the model's boundary. -/
  | nonBinary
  /-- A written word has not its port's width (20_memory.md R45). Raised by `drive`. Safe
  (notes/assumptions/6.md). -/
  | portWidth
  /-- The transaction's word selects no operation of its module. Raised by `fetch`. Safe
  (notes/assumptions/3.md). -/
  | undecodable (why : DecodeError)
deriving DecidableEq, Repr

/-- 10_state.md R24: the ports of HAM_ENC built for N = n. -/
structure EncPorts (n : Nat) where
  /-- in: payload -/
  d : BitVec n
  /-- out: codeword -/
  cw : BitVec (codeLen n)
deriving DecidableEq, Repr

/-- 10_state.md R25: the ports of HAM_DEC built for N = n. -/
structure DecPorts (n : Nat) where
  /-- in: received codeword -/
  rx : BitVec (codeLen n)
  /-- out: syndrome word -/
  syn : BitVec (parityCount n)
  /-- out: 1 when `S != 0` -/
  err : Bit
  /-- out: 1 when `S > L`, the advisory UncorrectableError -/
  uncorr : Bit
  /-- out: corrected codeword -/
  corr : BitVec (codeLen n)
  /-- out: forward error position -/
  epos : BitVec (parityCount n)
  /-- out: payload extracted from `corr` -/
  dout : BitVec n
deriving DecidableEq, Repr

/-- 10_state.md R26: the ports of HAM_SYND built for `L_e = le`. -/
structure SyndPorts (le : Nat) where
  /-- in: working array -/
  a : BitVec le
  /-- in: 1 = WRITE, 0 = COLLECT -/
  mode : Bit
  /-- out: the folded block parities -/
  s : BitVec (indexCount le)
  /-- out: the array, with its parity positions overwritten in WRITE mode -/
  w : BitVec le
deriving DecidableEq, Repr

/-- The state of the model. -/
structure State where
  /-- The elaboration parameters; no step changes them (10_state.md R22). -/
  params : Params
  enc : EncPorts params.n
  dec : DecPorts (decoderN params)
  synd : SyndPorts params.le
  /-- The integrator's transactions still to be made, the next one first. The model's own field
  (notes/assumptions/2.md): the CORE has no queue. -/
  pending : List Transaction
deriving DecidableEq, Repr

/-- 10_state.md R29, 70_reset_and_hazards.md R150: the CORE has no reset state; every output is its
function of the inputs. DESIGN CHOICE (notes/assumptions/1.md): N = 11, the width of the source's own
example, a decoder built from N, a free engine as long as the codeword, and every input port at 0;
every output is then 0, which is its function of those inputs. -/
def State.reset : State where
  params := ⟨11, none, 15⟩
  enc := { d := 0, cw := 0 }
  dec := { rx := 0, syn := 0, err := false, uncorr := false, corr := 0, epos := 0, dout := 0 }
  synd := { a := 0, mode := false, s := 0, w := 0 }
  pending := []

end Sys2Proof.Machine
end

