-- ==== Sys2Proof/Machine/Flags.lean ====
section
/-! DEFINITION. The decoder's status outputs and forward error position, as functions of the syndrome
value S and the codeword width L (10_state.md R28; 43_decoder.md R113, R114, R116). -/

namespace Sys2Proof.Machine

/-- 43_decoder.md R113: 1 when `S != 0`. -/
def errFlag (S : Nat) : Bit :=
  decide (S ≠ 0)

/-- 43_decoder.md R114: 1 when `S > L`. -/
def uncorrFlag (l S : Nat) : Bit :=
  decide (l < S)

/-- 43_decoder.md R116: `L - S + 1` when `1 <= S <= L`, else 0. -/
def errorPosition (l S : Nat) : Nat :=
  if 1 ≤ S ∧ S ≤ l then forwardPos l S else 0

end Sys2Proof.Machine
end

