-- ==== Sys2Proof/Machine/Ops.lean ====
section
/-! DEFINITION. The operations the meanings share: on the bits of a word, and on a module that has to
be built before it can be evaluated. The CORE takes no exception and returns from none (60_exceptions.md
R130), and has no memory (20_memory.md R40): there is no operation for either. -/

namespace Sys2Proof.Machine

/-- `v[k] <- b`; a k outside the word changes nothing. -/
def setBit {l : Nat} (v : BitVec l) (k : Nat) (b : Bit) : BitVec l :=
  if b then v ||| BitVec.twoPow l k else v &&& ~~~(BitVec.twoPow l k)

/-- `XOR{ f(p) : p in ps }` (00_scope.md R13): 0 on the empty collection. -/
def xorOver (f : Nat → Bit) : List Nat → Bit
  | [] => false
  | p :: ps => f p ^^ xorOver f ps

/-- 43_decoder.md R115: S decoded into a one-hot mask of width l; "Syndrome codes above L drive no mask
bit", and neither does 0. -/
def flipMask (l S : Nat) : BitVec l :=
  if 1 ≤ S ∧ S ≤ l then BitVec.twoPow l (S - 1) else 0

/-- Why PARITYCOUNT refuses the payload width n, if it does. -/
def payloadRefusal (n : Nat) : Option Refusal :=
  match parityCountOrRefuse n with
  | .ok _ => none
  | .error why => some (.invalidInput why)

/-- 60_exceptions.md R131, R136: why a module with these parameters was not built, if it was not. A block
built from N is checked only for the empty payload, a decoder built from L only for its length. -/
def buildRefusal (p : Params) : HwUnit → Option Refusal
  | .hamEnc => payloadRefusal p.n
  | .hamDec =>
    match p.decLen with
    | none => payloadRefusal p.n
    | some l => if validLength l then none else some (.invalidInput .invCodewordLength)
  | .hamSynd => if 1 ≤ p.le then none else some .engineLength

/-- An evaluation of a module: it takes place when the module was built (00_scope.md R17). -/
def onBuilt (u : HwUnit) (eval : State → State) (s : State) : Host.Outcome State Fault Refusal :=
  match buildRefusal s.params u with
  | some r => .refused r
  | none => .next (eval s)

end Sys2Proof.Machine
end

