-- ==== Sys2Proof/Machine/Placement.lean ====
section
/-! DEFINITION. The placement map (30_encoding.md R52), the encoder's placement network (42_encoder.md
R101) and the decoder's payload extraction (43_decoder.md R117). -/

namespace Sys2Proof.Machine

/-- 30_encoding.md R52: `DPOS(i) = i + 1 + PARITYCOUNT(i + 1)`, the position of payload bit i. -/
def dpos (i : Nat) : Nat :=
  i + 1 + parityCount (i + 1)

/-- 30_encoding.md R52: `DIDX(p) = p - floor(log2 p) - 2`, the payload bit of a data position. -/
def didx (p : Nat) : Nat :=
  p - Nat.log2 p - 2

/-- 42_encoder.md R101: 0 at each parity position, the next payload bit at each other position. -/
def place {n : Nat} (d : BitVec n) : BitVec (codeLen n) :=
  BitVec.ofFnLE fun k => if isPow2 (k.val + 1) then false else d.getLsbD (didx (k.val + 1))

/-- 43_decoder.md R117: `dout[i] = corr[DPOS(i) - 1]`. -/
def extract {n : Nat} (c : BitVec (codeLen n)) : BitVec n :=
  BitVec.ofFnLE fun i => c.getLsbD (dpos i.val - 1)

end Sys2Proof.Machine
end

