-- ==== Sys2Proof/Decode.lean ====
section
/-! DEFINITION. Operation selection (30_encoding.md section 4) and its encoder.

opcode_table.json gives every row one bit, the engine's mode bit, with mask 0x1. ENCODE shares its
pattern with SYND.WRITE and DECODE with SYND.COLLECT: the module driven tells them apart (R62), so the
decoder takes the module beside the bytes. -/

namespace Sys2Proof

open Machine (DecodeError)

/-- 30_encoding.md R56: `mode = 1`, WRITE. -/
def modeWrite : Bit := true

/-- 30_encoding.md R56: `mode = 0`, COLLECT. -/
def modeCollect : Bit := false

/-- The mode bit of a table word: bit 0 of its byte (mask 0x1). The mode port is one bit wide, so the
byte's other bits reach no port. -/
def modeBit (b : Byte) : Bit :=
  b.getLsbD 0

/-- 30_encoding.md R62: the operation that a word selects on the module driven, and the bytes left.
HAM_ENC has `mode` tied to 1 and HAM_DEC to 0 (10_state.md R26); the other value is no row there. -/
def decode : HwUnit → List Byte → Except DecodeError (Instr × List Byte)
  | _, [] => .error .noWord
  | .hamSynd, b :: rest =>
    .ok (if modeBit b = modeWrite then .syndWrite else .syndCollect, rest)
  | .hamEnc, b :: rest =>
    if modeBit b = modeWrite then .ok (.encode, rest) else .error .tiedMode
  | .hamDec, b :: rest =>
    if modeBit b = modeCollect then .ok (.decode, rest) else .error .tiedMode

/-- The table's pattern of each row ("match"), the other bits of the byte 0. -/
def encode : Instr → List Byte
  | .syndCollect => [0x0]
  | .syndWrite => [0x1]
  | .encode => [0x1]
  | .decode => [0x0]

/-- The low `k` bytes of `w`, least significant first. -/
def bytesOf : Nat → Nat → List Byte
  | 0, _ => []
  | k + 1, w => BitVec.ofNat 8 w :: bytesOf k (w / 256)

/-- A table word of `nbits` bits (in whole bytes) as it is laid out. -/
def tableBytes (nbits w : Nat) : List Byte :=
  bytesOf ((nbits + 7) / 8) w

/-- The module a bare table word is read for. DESIGN CHOICE (notes/assumptions/4.md): a bare word says
nothing of the module, and its one bit is the mode port's value, so it is read for HAM_SYND, the one
module that has a mode port. -/
def tableUnit : HwUnit := .hamSynd

/-- The operation read from a bare table word. -/
def decodeTableWord (nbits w : Nat) : Option Instr :=
  match decode tableUnit (tableBytes nbits w) with
  | .ok (i, []) => some i
  | _ => none

end Sys2Proof
end

