-- ==== Sys2Proof/Machine/Syndrome.lean ====
section
/-! DEFINITION. The syndrome engine HAM_SYND as 41_syndrome_engine.md R80-R85 define it: the block
sequences, the fold, and the sequential write-back. The closed form of R86-R88 is in XorTree.lean. -/

namespace Sys2Proof.Machine

/-- 00_scope.md R14: `arr[s : e]`, cut at the width of `arr`. -/
def slice {l : Nat} (arr : BitVec l) (s e : Nat) : List Bit :=
  (List.range' s (min e l - s)).map arr.getLsbD

/-- 41_syndrome_engine.md R82: the loop of BLOCKSEQ from `index` on. Each turn advances `index`, so that
as many turns as the array has bits are enough. -/
def blocksFrom {l : Nat} (arr : BitVec l) (j : Nat) : (turns : Nat) → (index : Nat) → List Bit
  | 0, _ => []
  | turns + 1, index =>
    if index < l then
      slice arr index (index + 2 ^ j) ++ blocksFrom arr j turns (index + 2 ^ (j + 1))
    else []

/-- 41_syndrome_engine.md R82: BLOCKSEQ(arr, j), which starts at `start = 2^j - 1`. -/
def blockSeq {l : Nat} (arr : BitVec l) (j : Nat) : List Bit :=
  blocksFrom arr j l (2 ^ j - 1)

/-- 41_syndrome_engine.md R83: FOLD(arr, j): the bit at `start`, XORed with every element of the block
sequence but the first. -/
def foldIndex {l : Nat} (arr : BitVec l) (j : Nat) : Bit :=
  (blockSeq arr j).tail.foldl (· ^^ ·) (arr.getLsbD (2 ^ j - 1))

/-- The outputs of the engine: `s`, one bit per index, and `w`. -/
structure SyndOut (l : Nat) where
  s : BitVec (indexCount l)
  w : BitVec l
deriving DecidableEq, Repr

/-- 41_syndrome_engine.md R84: one turn of the loop: fold index j over the array as it stands, write the
value back at once, and put it out. -/
def writeBack {l : Nat} (out : SyndOut l) (j : Nat) : SyndOut l :=
  let v := foldIndex out.w j
  { s := setBit out.s j v, w := setBit out.w (2 ^ j - 1) v }

/-- The write-back loop with its indices taken in the order of `js` (41_syndrome_engine.md R87 is about
every order). -/
def syndWriteIn {l : Nat} (js : List Nat) (a : BitVec l) : SyndOut l :=
  js.foldl writeBack { s := 0, w := a }

/-- 41_syndrome_engine.md R84: SYND.WRITE, the indices visited in increasing order. -/
def syndWrite {l : Nat} (a : BitVec l) : SyndOut l :=
  syndWriteIn (List.range (indexCount l)) a

/-- 41_syndrome_engine.md R85: SYND.COLLECT: every index folded over the array as given, and the array
unchanged. -/
def syndCollect {l : Nat} (a : BitVec l) : SyndOut l :=
  { s := BitVec.ofFnLE fun j => foldIndex a j.val, w := a }

/-- 41_syndrome_engine.md R80: the engine, one function parameterized by mode (30_encoding.md R56). -/
def syndEngine {l : Nat} (mode : Bit) (a : BitVec l) : SyndOut l :=
  if mode = modeWrite then syndWrite a else syndCollect a

/-- The ports of HAM_SYND once `s` and `w` have settled for the `a` and `mode` driven (10_state.md R26,
R27). -/
def settledSynd {le : Nat} (a : BitVec le) (mode : Bit) : SyndPorts le :=
  let out := syndEngine mode a
  { a := a, mode := mode, s := out.s, w := out.w }

/-- HAM_SYND evaluated on the word at `a` with `mode` driven as given. -/
def evalSynd (mode : Bit) (s : State) : State :=
  { s with synd := settledSynd s.synd.a mode }

/-- 41_syndrome_engine.md R85: SYND.COLLECT. -/
def execSyndCollect (s : State) : Host.Outcome State Fault Refusal :=
  onBuilt .hamSynd (evalSynd modeCollect) s

/-- 41_syndrome_engine.md R84: SYND.WRITE. -/
def execSyndWrite (s : State) : Host.Outcome State Fault Refusal :=
  onBuilt .hamSynd (evalSynd modeWrite) s

end Sys2Proof.Machine
end

