-- ==== Sys2Proof/Machine/Decoder.lean ====
section
/-! DEFINITION. HAM_DEC: the engine with `mode` tied to 0, then comparison, correction, error position and
payload extraction (43_decoder.md). -/

namespace Sys2Proof.Machine

/-- 43_decoder.md R111: the syndrome word of a received word. The engine of a valid length visits exactly
the R indices of the port (40_parity_count.md R74), so the change of width loses nothing. -/
def syndromeOf {n : Nat} (rx : BitVec (codeLen n)) : BitVec (parityCount n) :=
  (syndEngine modeCollect rx).s.setWidth (parityCount n)

/-- 43_decoder.md R110: DECODE, the ports of HAM_DEC once they have settled for the `rx` driven. -/
def decodeWord {n : Nat} (rx : BitVec (codeLen n)) : DecPorts n :=
  let syn := syndromeOf rx
  let S := syn.toNat
  let corr := rx ^^^ flipMask (codeLen n) S
  { rx := rx
    syn := syn
    err := errFlag S
    uncorr := uncorrFlag (codeLen n) S
    corr := corr
    epos := BitVec.ofNat (parityCount n) (errorPosition (codeLen n) S)
    dout := extract corr }

/-- HAM_DEC evaluated on the word at `rx`. -/
def evalDec (s : State) : State :=
  { s with dec := decodeWord s.dec.rx }

/-- 43_decoder.md R110: DECODE. -/
def execDecode (s : State) : Host.Outcome State Fault Refusal :=
  onBuilt .hamDec evalDec s

end Sys2Proof.Machine
end

