-- ==== Sys2Proof/Machine/Encoder.lean ====
section
/-! DEFINITION. HAM_ENC: placement followed by the engine with `mode` tied to 1 (42_encoder.md). -/

namespace Sys2Proof.Machine

/-- 42_encoder.md R100: PLACE, then SYND.WRITE; the codeword is the engine's `w`. -/
def encodeWord {n : Nat} (d : BitVec n) : BitVec (codeLen n) :=
  (syndEngine modeWrite (place d)).w

/-- The ports of HAM_ENC once `cw` has settled for the `d` driven (10_state.md R27). -/
def settledEnc {n : Nat} (d : BitVec n) : EncPorts n :=
  { d := d, cw := encodeWord d }

/-- HAM_ENC evaluated on the word at `d`. -/
def evalEnc (s : State) : State :=
  { s with enc := settledEnc s.enc.d }

/-- 42_encoder.md R100: ENCODE. -/
def execEncode (s : State) : Host.Outcome State Fault Refusal :=
  onBuilt .hamEnc evalEnc s

end Sys2Proof.Machine
end

