-- ==== Sys2Proof/Machine/Operands.lean ====
section
/-! DEFINITION. How a word reaches an input port: the written form of 30_encoding.md R61 and driving a
module's input. The CORE has one operand form: a whole port word (20_memory.md R45). -/

namespace Sys2Proof.Machine

/-- 60_exceptions.md R132: only `0` and `1` are binary characters. -/
def readBit : Char → Option Bit
  | '0' => some false
  | '1' => some true
  | _ => none

/-- The bits of a written word, in the order written; `none` when a character is not binary. -/
def readBits : List Char → Option (List Bit)
  | [] => some []
  | c :: cs =>
    match readBit c, readBits cs with
    | some b, some bs => some (b :: bs)
    | _, _ => none

/-- The value of bits written most significant first (R61), on top of what was read before them. -/
def numeral (acc : Nat) : List Bit → Nat
  | [] => acc
  | b :: bs => numeral (2 * acc + b.toNat) bs

/-- The word of width w that a written form stands for (R61), or why there is none. -/
def wordOfWritten (w : Nat) (cs : List Char) : Except Refusal (BitVec w) :=
  match readBits cs with
  | none => .error .nonBinary
  | some bs => if bs.length = w then .ok (BitVec.ofNat w (numeral 0 bs)) else .error .portWidth

/-- The written form of a word: `v[w-1] .. v[0]` (R61). -/
def writtenOf {w : Nat} (v : BitVec w) : List Char :=
  (List.range w).map fun k => if v.getLsbD (w - 1 - k) then '1' else '0'

/-- The input port of a module carries a new word: `d`, `rx` or `a`. -/
def driveWord (u : HwUnit) (cs : List Char) (s : State) : Except Refusal State :=
  match u with
  | .hamEnc =>
    match wordOfWritten s.params.n cs with
    | .ok v => .ok { s with enc := { s.enc with d := v } }
    | .error r => .error r
  | .hamDec =>
    match wordOfWritten (codeLen (decoderN s.params)) cs with
    | .ok v => .ok { s with dec := { s.dec with rx := v } }
    | .error r => .error r
  | .hamSynd =>
    match wordOfWritten s.params.le cs with
    | .ok v => .ok { s with synd := { s.synd with a := v } }
    | .error r => .error r

/-- Drive a module's input: a module that was not built has no port (60_exceptions.md R131), and `none`
leaves the port as it is. -/
def drive (u : HwUnit) (input : Option (List Char)) (s : State) : Except Refusal State :=
  match buildRefusal s.params u, input with
  | some r, _ => .error r
  | none, none => .ok s
  | none, some cs => driveWord u cs s

end Sys2Proof.Machine
end

