-- ==== Sys2Proof/Machine/Transact.lean ====
section
/-! DEFINITION. What one step does: the integrator's next transaction, whole (20_memory.md R45: "A model
treats each evaluation as indivisible"), or, when there is none, the outputs following the inputs. -/

namespace Sys2Proof.Machine

/-- The operation a transaction selects; its word is one byte and no more. -/
def fetch (t : Transaction) : Except Refusal Instr :=
  match decode t.unit t.word with
  | .error why => .error (.undecodable why)
  | .ok (i, []) => .ok i
  | .ok (_, _ :: _) => .error (.undecodable .trailingBytes)

/-- One transaction: select the operation, drive the module's input, evaluate the module. -/
def transact (t : Transaction) (s : State) : Host.Outcome State Fault Refusal :=
  match fetch t with
  | .error r => .refused r
  | .ok i =>
    match drive t.unit t.input s with
    | .error r => .refused r
    | .ok s' => exec i s'

/-- Every output follows its module's inputs (10_state.md R27, R29). -/
def settle (s : State) : State :=
  evalEnc (evalDec (evalSynd s.synd.mode s))

/-- The first module that was not built, as a refusal. -/
def firstRefusal (p : Params) : Option Refusal :=
  (buildRefusal p .hamEnc).or ((buildRefusal p .hamDec).or (buildRefusal p .hamSynd))

/-- No transaction: the inputs stay and the outputs are what they are of them
(70_reset_and_hazards.md R150). Where a parameter is refused there is no machine to idle. -/
def idle (s : State) : Host.Outcome State Fault Refusal :=
  match firstRefusal s.params with
  | some r => .refused r
  | none => .next (settle s)

/-- A table word as a transaction that drives no input (notes/assumptions/4.md). -/
def tableTransaction (nbits w : Nat) : Transaction :=
  { unit := tableUnit, word := tableBytes nbits w, input := none }

end Sys2Proof.Machine
end

