-- ==== Sys2Proof/Machine/Step.lean ====
section
/-! DEFINITION. One step of the machine. -/

namespace Sys2Proof.Machine

/-- The integrator's next transaction, or the outputs settling when there is none. -/
def step (s : State) : Host.Outcome State Fault Refusal :=
  match s.pending with
  | [] => idle s
  | t :: rest => transact t { s with pending := rest }

/-- The table word `w` placed as the integrator's next transaction (notes/assumptions/2.md and 4.md). -/
def State.withFetchWord (s : State) (nbits w : Nat) : State :=
  { s with pending := tableTransaction nbits w :: s.pending }

end Sys2Proof.Machine
end

