-- ==== Sys2Proof/Machine/Channel.lean ====
section
/-! DEFINITION. The channel of 30_encoding.md R63: what a test does to a word OUTSIDE the CORE, between one
module's output and the other's input. No step of the machine calls it. -/

namespace Sys2Proof.Machine

/-- 30_encoding.md R63: `CHANNEL.FLIPPOS p` flips position p. DESIGN CHOICE (notes/assumptions/12.md): the
rule says nothing of a p outside `1 .. l`; it flips nothing here. -/
def channelFlipPos {l : Nat} (w : BitVec l) (p : Nat) : BitVec l :=
  w ^^^ flipMask l p

/-- 30_encoding.md R63: `CHANNEL.FLIP f` flips forward position f. DESIGN CHOICE (notes/assumptions/12.md):
the rule says nothing of an f outside `1 .. l`; it flips nothing here. -/
def channelFlip {l : Nat} (w : BitVec l) (f : Nat) : BitVec l :=
  channelFlipPos w (forwardPos l f)

end Sys2Proof.Machine
end

