-- ==== Sys2Proof/Machine/XorTree.lean ====
section
/-! DEFINITION. The closed form of the engine (41_syndrome_engine.md R86-R89): block sets as sets of
positions, and the balanced XOR reduction tree of R88 with its size and depth. -/

namespace Sys2Proof.Machine

/-- 41_syndrome_engine.md R86: `BLK_j(l) = { p : 1 <= p <= l and bit(p, j) = 1 }`, in increasing p. -/
def blk (l j : Nat) : List Nat :=
  (positions l).filter fun p => posBit p j

/-- 41_syndrome_engine.md R87: `XOR{ a[p-1] : p in BLK_j(l) }`. -/
def blkParity {l : Nat} (a : BitVec l) (j : Nat) : Bit :=
  xorOver (fun p => a.getLsbD (p - 1)) (blk l j)

/-- 41_syndrome_engine.md R88: `cnt_j(l) = |BLK_j(l)|`, by the rule's formula. Subtraction of naturals
stops at 0, which is the formula's `max(0, ...)`. -/
def blkCount (l j : Nat) : Nat :=
  l / 2 ^ (j + 1) * 2 ^ j + (l % 2 ^ (j + 1) + 1 - 2 ^ j)

/-- A tree of 2-input XOR gates over positions. -/
inductive XorTree where
  | input (p : Nat)
  | gate (left right : XorTree)
deriving DecidableEq, Repr

/-- The value at the root of a tree whose inputs are wired to a word's positions. -/
def treeValue {l : Nat} (a : BitVec l) : XorTree → Bit
  | .input p => a.getLsbD (p - 1)
  | .gate x y => treeValue a x ^^ treeValue a y

/-- The number of 2-input gates. -/
def treeGates : XorTree → Nat
  | .input _ => 0
  | .gate x y => treeGates x + treeGates y + 1

/-- The number of gate levels from the deepest input to the root. -/
def treeDepth : XorTree → Nat
  | .input _ => 0
  | .gate x y => max (treeDepth x) (treeDepth y) + 1

/-- The balanced tree over a list of positions: each gate halves its list. A list of m positions needs
at most m levels of calls. -/
def balancedFrom : (levels : Nat) → List Nat → Option XorTree
  | _, [] => none
  | _, [p] => some (.input p)
  | 0, _ => none
  | levels + 1, ps =>
    match balancedFrom levels (ps.take (ps.length / 2)), balancedFrom levels (ps.drop (ps.length / 2)) with
    | some x, some y => some (.gate x y)
    | _, _ => none

/-- 41_syndrome_engine.md R88: the reference tree, "a balanced binary tree of 2-input XOR gates". -/
def balancedTree (ps : List Nat) : Option XorTree :=
  balancedFrom ps.length ps

/-- 41_syndrome_engine.md R88: the tree of syndrome bit j in a decoder of length l. -/
def syndromeTree (l j : Nat) : Option XorTree :=
  balancedTree (blk l j)

/-- 70_reset_and_hazards.md R155: the tree of parity bit j in an encoder of length l; its placeholder
input is the constant 0 and is left out. -/
def parityTree (l j : Nat) : Option XorTree :=
  balancedTree ((blk l j).filter fun p => p ≠ 2 ^ j)

end Sys2Proof.Machine
end

