-- ==== Sys2Proof/WellFormed.lean ====
section
/-! DEFINITION. What a machine and a transaction must satisfy to be run.

An `Instr` is one of four names and is always well formed. The checks are on what surrounds it: the
elaboration parameters, and the transaction that carries its word and input. -/

namespace Sys2Proof

open Machine

/-- 00_scope.md R4, R7, 30_encoding.md R58: N is at least 1, a length to build a decoder from is valid, and
L_e is at least 1. -/
def Params.wellFormed (p : Params) : Bool :=
  decide (1 ≤ p.n) && (p.decLen.elim true validLength) && decide (1 ≤ p.le)

/-- The width of a module's input port (10_state.md R24-R26). -/
def inputWidth (p : Params) : HwUnit → Nat
  | .hamEnc => p.n
  | .hamDec => codeLen (decoderN p)
  | .hamSynd => p.le

/-- The word is one byte that selects an operation of the module (30_encoding.md R62). -/
def Transaction.wordOk (t : Transaction) : Bool :=
  match decode t.unit t.word with
  | .ok (_, rest) => rest.isEmpty
  | .error _ => false

/-- The input, when there is one, is a written word of the port's width (20_memory.md R45,
60_exceptions.md R132). -/
def Transaction.inputOk (p : Params) (t : Transaction) : Bool :=
  match t.input with
  | none => true
  | some cs => (readBits cs).isSome && decide (cs.length = inputWidth p t.unit)

/-- A transaction that the machine with these parameters runs. -/
def Transaction.wellFormed (p : Params) (t : Transaction) : Bool :=
  t.wordOk && t.inputOk p

end Sys2Proof
end

