-- ==== Sys2Proof/Safety.lean ====
section
/-! DEFINITION. What claims are stated in: when a module is built, and what its outputs must be of its
inputs, in the closed forms of the spec (41_syndrome_engine.md R87, 42_encoder.md R102, 43_decoder.md
R111-R117) and not by the engine's own loop. -/

namespace Sys2Proof.Safety

open Machine

/-- 30_encoding.md R58, its definition: `L = n + PARITYCOUNT(n)` for some `n >= 1`. -/
def ValidLength (l : Nat) : Prop :=
  ∃ n, 1 ≤ n ∧ l = codeLen n

/-- HAM_ENC is built: `N >= 1` (00_scope.md R4). -/
def EncBuilt (p : Params) : Prop :=
  1 ≤ p.n

/-- HAM_DEC is built: from `N >= 1`, or from a valid length (60_exceptions.md R136). -/
def DecBuilt (p : Params) : Prop :=
  match p.decLen with
  | none => 1 ≤ p.n
  | some l => ValidLength l

/-- HAM_SYND is built: `L_e >= 1` (00_scope.md R7). -/
def SyndBuilt (p : Params) : Prop :=
  1 ≤ p.le

/-- The module driven is built. -/
def UnitBuilt (p : Params) : HwUnit → Prop
  | .hamEnc => EncBuilt p
  | .hamDec => DecBuilt p
  | .hamSynd => SyndBuilt p

/-- Every module is built. -/
def AllBuilt (p : Params) : Prop :=
  EncBuilt p ∧ DecBuilt p ∧ SyndBuilt p

/-- 42_encoder.md R102: every data position holds its payload bit, and every parity bit is the XOR of the
payload bits of its block set, itself apart. -/
def EncOk {n : Nat} (e : EncPorts n) : Prop :=
  (∀ i, i < n → e.cw.getLsbD (dpos i - 1) = e.d.getLsbD i) ∧
  (∀ j, j < parityCount n → e.cw.getLsbD (2 ^ j - 1) =
    xorOver (fun p => e.d.getLsbD (didx p)) ((blk (codeLen n) j).filter fun p => p ≠ 2 ^ j))

/-- 43_decoder.md R111-R117: each output of the decoder, of `rx` and of the outputs it rests on. -/
def DecOk {n : Nat} (q : DecPorts n) : Prop :=
  (∀ j, j < parityCount n → q.syn.getLsbD j = blkParity q.rx j) ∧
  (q.err = decide (q.syn.toNat ≠ 0)) ∧
  (q.uncorr = decide (codeLen n < q.syn.toNat)) ∧
  (∀ k, k < codeLen n → q.corr.getLsbD k =
    (q.rx.getLsbD k ^^ decide (1 ≤ q.syn.toNat ∧ q.syn.toNat ≤ codeLen n ∧ k = q.syn.toNat - 1))) ∧
  (q.epos.toNat =
    if 1 ≤ q.syn.toNat ∧ q.syn.toNat ≤ codeLen n then codeLen n - q.syn.toNat + 1 else 0) ∧
  (∀ i, i < n → q.dout.getLsbD i = q.corr.getLsbD (dpos i - 1))

/-- 41_syndrome_engine.md R87, the parallel form: `s[j]` is the XOR over the block set of j, and `w` is `a`,
in WRITE mode with the bit at each parity position visited replaced by its `s[j]`. -/
def SyndOk {le : Nat} (q : SyndPorts le) : Prop :=
  (∀ j, j < indexCount le → q.s.getLsbD j = blkParity q.a j) ∧
  (∀ j, j < indexCount le →
    q.w.getLsbD (2 ^ j - 1) = if q.mode then q.s.getLsbD j else q.a.getLsbD (2 ^ j - 1)) ∧
  (∀ k, k < le → (∀ j, j < indexCount le → k ≠ 2 ^ j - 1) → q.w.getLsbD k = q.a.getLsbD k)

/-- 10_state.md R27, R29: every output is the function its rule names of its module's current inputs. -/
def Settled (s : State) : Prop :=
  EncOk s.enc ∧ DecOk s.dec ∧ SyndOk s.synd

/-- 42_encoder.md R103, the table: row j lists the payload bits whose XOR is the parity bit of index j, for
every N up to 26; a smaller N keeps the terms below N. -/
def parityRows : List (List Nat) := [
  [0, 1, 3, 4, 6, 8, 10, 11, 13, 15, 17, 19, 21, 23, 25],
  [0, 2, 3, 5, 6, 9, 10, 12, 13, 16, 17, 20, 21, 24, 25],
  [1, 2, 3, 7, 8, 9, 10, 14, 15, 16, 17, 22, 23, 24, 25],
  [4, 5, 6, 7, 8, 9, 10, 18, 19, 20, 21, 22, 23, 24, 25],
  [11, 12, 13, 14, 15, 16, 17, 18, 19, 20, 21, 22, 23, 24, 25]]

end Sys2Proof.Safety
end

