-- ==== Sys2Proof/Certificates/Slice0/Obligations.lean ====
section
/-! DEFINITION. The statements for the provers. `s[j]`-style indexing of the rules is `getLsbD` (00_scope.md
R9). A rule that the spec marks as its own derivation or decision says so in the docstring that cites it. -/

open Sys2Proof Sys2Proof.Machine Sys2Proof.Safety

/-! ## Operation selection and the step -/

/-- The four rows of opcode_table.json: the mode bit of the row, on the row's module, selects the row's
operation (30_encoding.md section 4; the bit values are decision D5). -/
def Obligations.OpcodeWordsDecode : Prop :=
  decode .hamSynd [0b00000000] = .ok (.syndCollect, []) ∧
  decode .hamSynd [0b00000001] = .ok (.syndWrite, []) ∧
  decode .hamEnc [0b00000001] = .ok (.encode, []) ∧
  decode .hamDec [0b00000000] = .ok (.decode, [])

/-- Decoding an encoded operation, on its module, gives it back and leaves the bytes that follow. -/
def Obligations.DecodeOfEncodedOperation : Prop :=
  ∀ (i : Instr) (rest : List Byte), decode i.unit (encode i ++ rest) = .ok (i, rest)

/-- Bit 0 alone (mask 0x1) selects; HAM_ENC and HAM_DEC know only the value tied to their engine
(10_state.md R26), the other being no row (model's choice, log entry 3). -/
def Obligations.ModeBitAloneSelects : Prop :=
  ∀ (b : Byte) (rest : List Byte),
    decode .hamSynd (b :: rest) = .ok (if b.getLsbD 0 then .syndWrite else .syndCollect, rest) ∧
    decode .hamEnc (b :: rest) = (if b.getLsbD 0 then .ok (.encode, rest) else .error .tiedMode) ∧
    decode .hamDec (b :: rest) = (if b.getLsbD 0 then .error .tiedMode else .ok (.decode, rest)) ∧
    ∀ u, decode u [] = .error .noWord

/-- A step makes the next transaction: it takes it off the list, drives its input if it has one, and is
then `exec` of the operation its word selects (log entry 2: the list is the model's). -/
def Obligations.StepRunsDecodedTransaction : Prop :=
  ∀ (s : State) (t : Transaction) (rest : List Transaction) (i : Instr),
    s.pending = t :: rest → decode t.unit t.word = .ok (i, []) →
      (t.input = none → step s = exec i { s with pending := rest }) ∧
      (∀ s', drive t.unit t.input { s with pending := rest } = .ok s' → step s = exec i s')

/-- A table word placed by `withFetchWord` is what the very next step runs. -/
def Obligations.PlacedTableWordRunsNext : Prop :=
  ∀ (s : State) (nbits w : Nat) (i : Instr),
    decodeTableWord nbits w = some i → step (s.withFetchWord nbits w) = exec i s

/-- The written form of a word, most significant bit first (30_encoding.md R61), drives exactly that word onto
the module's input port. Model's choices: that a transaction carries its input in written form and becomes a
port word, for `a` of HAM_SYND too (log entry 6), and that one step takes it off a list (log entry 2). -/
def Obligations.StepDrivesWrittenWord : Prop :=
  ∀ (s : State) (word : List Byte) (rest : List Transaction),
    (∀ v : BitVec s.params.n, EncBuilt s.params → decode .hamEnc word = .ok (.encode, []) →
      s.pending = ⟨.hamEnc, word, some (writtenOf v)⟩ :: rest →
      step s = exec .encode { s with pending := rest, enc := { s.enc with d := v } }) ∧
    (∀ v : BitVec (codeLen (decoderN s.params)), DecBuilt s.params →
      decode .hamDec word = .ok (.decode, []) →
      s.pending = ⟨.hamDec, word, some (writtenOf v)⟩ :: rest →
      step s = exec .decode { s with pending := rest, dec := { s.dec with rx := v } }) ∧
    (∀ (v : BitVec s.params.le) (i : Instr), SyndBuilt s.params →
      decode .hamSynd word = .ok (i, []) →
      s.pending = ⟨.hamSynd, word, some (writtenOf v)⟩ :: rest →
      step s = exec i { s with pending := rest, synd := { s.synd with a := v } })

/-- A written word with a character other than `0` or `1` is refused at the boundary (60_exceptions.md R132);
so is one of another width than its port (20_memory.md R45; model's choice, log entry 6). A word that is
both is refused as not binary, an order the spec does not give (model's choice, log entry 13). The module
driven must be built; the other modules need not be. -/
def Obligations.BoundaryRefusesBadWords : Prop :=
  ∀ (s : State) (t : Transaction) (rest : List Transaction) (i : Instr) (cs : List Char),
    UnitBuilt s.params t.unit → s.pending = t :: rest → decode t.unit t.word = .ok (i, []) →
    t.input = some cs →
      ((∃ c ∈ cs, c ≠ '0' ∧ c ≠ '1') → step s = .refused .nonBinary) ∧
      ((∀ c ∈ cs, c = '0' ∨ c = '1') → cs.length ≠ inputWidth s.params t.unit →
        step s = .refused .portWidth)

/-- 70_reset_and_hazards.md R157: every well-formed transaction of a built module returns, whether the other
modules are built or not; and it leaves the rest of the list, which is the model's own (log entry 2). -/
def Obligations.WellFormedTransactionReturns : Prop :=
  ∀ (s : State) (t : Transaction) (rest : List Transaction),
    UnitBuilt s.params t.unit → t.wellFormed s.params = true → s.pending = t :: rest →
      ∃ s', step s = .next s' ∧ s'.pending = rest

/-! ## PARITYCOUNT and lengths -/

/-- 40_parity_count.md R70, with its exception and its corner cases. -/
def Obligations.ParityCountIsLeast : Prop :=
  (∀ n, n < 1 → parityCountOrRefuse n = .error .invEmptyPayload) ∧
  (∀ n, 1 ≤ n → parityCountOrRefuse n = .ok (parityCount n) ∧
    parityCount n + n + 1 ≤ 2 ^ parityCount n ∧
    ∀ r, r + n + 1 ≤ 2 ^ r → parityCount n ≤ r) ∧
  parityCount 1 = 2 ∧ (parityCount 4 = 3 ∧ codeLen 4 = 7) ∧ parityCount 5 = 4 ∧
  (parityCount 11 = 4 ∧ codeLen 11 = 15) ∧ parityCount 12 = 5

/-- 40_parity_count.md R72 (the spec's own derivation from R70): the range of n, and of L, for each R. -/
def Obligations.ParityCountRanges : Prop :=
  ∀ n, 1 ≤ n →
    (∀ r, 2 ≤ r → (parityCount n = r ↔ 2 ^ (r - 1) - r + 1 ≤ n ∧ n ≤ 2 ^ r - r - 1)) ∧
    (∀ r, 2 ≤ r → (parityCount n = r ↔ 2 ^ (r - 1) + 1 ≤ codeLen n ∧ codeLen n ≤ 2 ^ r - 1)) ∧
    parityCount n ≠ 0 ∧ parityCount n ≠ 1

/-- 40_parity_count.md R73 (the spec's own derivation from R70): the codeword width lies strictly between
consecutive powers of two. -/
def Obligations.CodewordWidthBounds : Prop :=
  ∀ n, 1 ≤ n →
    2 ^ (parityCount n - 1) < codeLen n ∧ codeLen n < 2 ^ parityCount n ∧
    parityCount n = Nat.log2 (codeLen n) + 1 ∧
    (∀ p, (p ≤ codeLen n ∧ ∃ j, p = 2 ^ j) ↔ ∃ j, j < parityCount n ∧ p = 2 ^ j) ∧
    ∀ j, codeLen n ≠ 2 ^ j

/-- 40_parity_count.md R75 (the spec's own derivation from R72). -/
def Obligations.ParityCountMonotone : Prop :=
  ∀ n, 1 ≤ n →
    parityCount n ≤ parityCount (n + 1) ∧ parityCount (n + 1) ≤ parityCount n + 1 ∧
    2 ≤ parityCount n

/-- 30_encoding.md R58 (its closed form is the spec's own derivation): the model's test of a length, the
definition of validity, and "at least 3 and no power of two" agree; the n of a valid length is unique. -/
def Obligations.ValidLengthsAreNonPowersOfTwo : Prop :=
  ∀ l, (ValidLength l ↔ 3 ≤ l ∧ ∀ j, l ≠ 2 ^ j) ∧ (validLength l = true ↔ ValidLength l) ∧
    ∀ n, 1 ≤ n → l = codeLen n → n = payloadOfLength l ∧ parityCount n = Nat.log2 l + 1

/-- 00_scope.md R11. -/
def Obligations.PowerOfTwoTest : Prop :=
  ∀ p, 1 ≤ p → (isPow2 p = true ↔ ∃ j, p = 2 ^ j) ∧ (isPow2 p = true ↔ p &&& (p - 1) = 0)

/-- 30_encoding.md R50-R52 (the closed forms are the spec's own derivation): `dpos` lists the data
positions in increasing order, `didx` is its inverse, and a codeword of payload width n has exactly n. -/
def Obligations.PlacementEnumeratesDataPositions : Prop :=
  (∀ i, 3 ≤ dpos i ∧ isPow2 (dpos i) = false ∧ didx (dpos i) = i ∧ dpos i < dpos (i + 1)) ∧
  (∀ p, 3 ≤ p → isPow2 p = false → dpos (didx p) = p) ∧
  ∀ n, 1 ≤ n → (∀ i, dpos i ≤ codeLen n ↔ i < n) ∧
    (positions (codeLen n)).filter (fun p => !isPow2 p) = (List.range n).map dpos

/-- 42_encoder.md R101: placeholders at the powers of two, the payload bits at the other positions, in
order. -/
def Obligations.PlaceConsumesPayloadInOrder : Prop :=
  ∀ (n : Nat) (d : BitVec n), 1 ≤ n →
    ((positions (codeLen n)).filter fun p => !isPow2 p).map (fun p => (place d).getLsbD (p - 1)) =
      (List.range n).map d.getLsbD ∧
    ∀ p, 1 ≤ p → p ≤ codeLen n →
      (place d).getLsbD (p - 1) = if isPow2 p then false else d.getLsbD (didx p)

/-! ## Syndrome engine -/

/-- 41_syndrome_engine.md R86 (the spec's own derivation from R82, R83): the block sequence lists the
positions whose bit j is set, in increasing order, and the fold is the XOR over them. -/
def Obligations.BlockSequenceIsBlockSet : Prop :=
  ∀ (l : Nat) (arr : BitVec l) (j : Nat),
    blockSeq arr j = (blk l j).map (fun p => arr.getLsbD (p - 1)) ∧
    (2 ^ j ≤ l → (blk l j).head? = some (2 ^ j)) ∧
    foldIndex arr j = blkParity arr j

/-- 41_syndrome_engine.md R81 and 40_parity_count.md R74 (the spec's own derivations): the indices visited,
and their number for a codeword length. -/
def Obligations.EngineVisitsIndicesBelowLength : Prop :=
  (∀ l j, j < indexCount l ↔ 2 ^ j < l) ∧ indexCount 1 = 0 ∧
  (∀ l, 2 ≤ l → indexCount l = Nat.clog 2 l) ∧
  ∀ n, 1 ≤ n → indexCount (codeLen n) = parityCount n

/-- 41_syndrome_engine.md R85: SYND.COLLECT completes whenever its engine is built; every `s[j]` is the fold
of `a` at j, `w` is `a`, `mode` is 0, nothing else changes; a flipped parity bit flips its own `s[j]`
only. -/
def Obligations.SyndCollectFoldsWithoutWriting : Prop :=
  ∀ s : State, SyndBuilt s.params →
    ∃ sv, exec .syndCollect s =
        .next { s with synd := { a := s.synd.a, mode := false, s := sv, w := s.synd.a } } ∧
      (∀ j, j < indexCount s.params.le →
        sv.getLsbD j = foldIndex s.synd.a j ∧ sv.getLsbD j = blkParity s.synd.a j) ∧
      (∀ i, i < indexCount s.params.le → ∀ b, b = channelFlipPos s.synd.a (2 ^ i) →
        exec .syndCollect { s with synd := { s.synd with a := b } } =
          .next { s with synd := { a := b, mode := false, s := sv ^^^ BitVec.twoPow _ i, w := b } }) ∧
      (s.params.le = 1 → indexCount s.params.le = 0)

/-- 41_syndrome_engine.md R84: SYND.WRITE completes whenever its engine is built; the arrays of its loop are
`arrs 0 = a`, and `arrs (j+1)` with the fold of `arrs j` at j written back at `2^j - 1`; `s[j]` is that
fold, `w` is the last array, `mode` is 1, nothing else changes; with `L_e = 1`, `w = a`. -/
def Obligations.SyndWriteWritesBackInTurn : Prop :=
  ∀ s : State, SyndBuilt s.params →
    ∃ (arrs : Nat → BitVec s.params.le) (sv : BitVec (indexCount s.params.le)),
      arrs 0 = s.synd.a ∧
      (∀ j, j < indexCount s.params.le → sv.getLsbD j = foldIndex (arrs j) j ∧
        ∀ k, k < s.params.le → (arrs (j + 1)).getLsbD k =
          if k = 2 ^ j - 1 then foldIndex (arrs j) j else (arrs j).getLsbD k) ∧
      exec .syndWrite s = .next { s with synd :=
        { a := s.synd.a, mode := true, s := sv, w := arrs (indexCount s.params.le) } } ∧
      (s.params.le = 1 → arrs (indexCount s.params.le) = s.synd.a)

/-- 41_syndrome_engine.md R87 (the spec's own derivation): SYND.WRITE completes with the outputs of the
parallel form, every `s[j]` an XOR over the array as driven. -/
def Obligations.SyndWriteEqualsParallelForm : Prop :=
  ∀ s : State, SyndBuilt s.params →
    ∃ q : SyndPorts s.params.le, exec .syndWrite s = .next { s with synd := q } ∧
      q.a = s.synd.a ∧ q.mode = true ∧ SyndOk q

/-- 41_syndrome_engine.md R87 (the spec's own derivation; 90_conflicts.md C2): every order of the indices
gives the outputs of the increasing order. -/
def Obligations.WriteBackOrderUnobservable : Prop :=
  ∀ (l : Nat) (a : BitVec l) (js : List Nat),
    js.Perm (List.range (indexCount l)) → syndWriteIn js a = syndWrite a

/-- 41_syndrome_engine.md R88 (the spec's own derivation): the number of inputs of the tree of bit j. -/
def Obligations.BlockSetSizeFormula : Prop :=
  ∀ l j : Nat,
    ((blk l j).length : Int) =
      (l : Int) / 2 ^ (j + 1) * 2 ^ j + max 0 ((l : Int) % 2 ^ (j + 1) - 2 ^ j + 1) ∧
    (blk l j).length = blkCount l j

/-- 41_syndrome_engine.md R88 (the tree is decision D18): the balanced tree of bit j gives the engine's fold,
with `cnt_j - 1` gates and depth `ceil(log2 cnt_j)`. -/
def Obligations.BalancedTreeComputesSyndromeBit : Prop :=
  ∀ (l : Nat) (a : BitVec l) (j : Nat), 2 ^ j ≤ l →
    ∃ t, syndromeTree l j = some t ∧ treeValue a t = foldIndex a j ∧
      treeGates t + 1 = (blk l j).length ∧ treeDepth t = Nat.clog 2 (blk l j).length

/-- 70_reset_and_hazards.md R155, R156 (informative derivations of the spec): the encoder's tree of parity
bit j leaves the placeholder out: `cnt_j - 2` gates, depth `ceil(log2 (cnt_j - 1))`, the bit of ENCODE. -/
def Obligations.EncoderTreeComputesParityBit : Prop :=
  ∀ (n : Nat) (d : BitVec n) (j : Nat), 1 ≤ n → j < parityCount n →
    ∃ t, parityTree (codeLen n) j = some t ∧
      treeValue (place d) t = (encodeWord d).getLsbD (2 ^ j - 1) ∧
      treeGates t + 2 = (blk (codeLen n) j).length ∧
      treeDepth t = Nat.clog 2 ((blk (codeLen n) j).length - 1)

/-- 41_syndrome_engine.md R90 (the spec's own derivation): both operations are linear over GF(2), and a flip
of position p changes `s` by `p mod 2^R_e`. -/
def Obligations.EngineLinear : Prop :=
  ∀ (l : Nat) (mode : Bit) (a b : BitVec l),
    (syndEngine mode (a ^^^ b)).s = (syndEngine mode a).s ^^^ (syndEngine mode b).s ∧
    (syndEngine mode (a ^^^ b)).w = (syndEngine mode a).w ^^^ (syndEngine mode b).w ∧
    (syndEngine mode (0 : BitVec l)).s = 0 ∧
    ∀ p, 1 ≤ p → p ≤ l →
      (syndEngine mode (channelFlipPos a p)).s =
        (syndEngine mode a).s ^^^ BitVec.ofNat (indexCount l) (p % 2 ^ indexCount l)

/-! ## Encoder -/

/-- 42_encoder.md R100: ENCODE completes for every `N >= 1`; its codeword is the `w` of SYND.WRITE on the
placed payload, and the engine's `s` equals the parity bits; nothing else changes. The corner cases: the
zero payload, and N = 1; `N = 0` is refused. -/
def Obligations.EncodeIsPlaceThenWrite : Prop :=
  ∀ s : State,
    (EncBuilt s.params →
      ∃ cw, exec .encode s = .next { s with enc := { s.enc with cw := cw } } ∧
        cw = (syndWrite (place s.enc.d)).w ∧
        (∀ j, j < parityCount s.params.n →
          (syndWrite (place s.enc.d)).s.getLsbD j = cw.getLsbD (2 ^ j - 1)) ∧
        (s.enc.d = 0 → cw = 0) ∧
        (s.params.n = 1 → ∀ k, k < 3 → cw.getLsbD k = s.enc.d.getLsbD 0)) ∧
    (¬ EncBuilt s.params → exec .encode s = .refused (.invalidInput .invEmptyPayload))

/-- 42_encoder.md R102, R105 (the spec's own derivations): ENCODE completes for every `N >= 1` with every
data bit passed through and every parity bit the XOR of the payload bits of its block set. -/
def Obligations.EncodeSynthesisesParity : Prop :=
  ∀ s : State, EncBuilt s.params →
    ∃ cw, exec .encode s = .next { s with enc := { s.enc with cw := cw } } ∧
      EncOk { s.enc with cw := cw }

/-- 42_encoder.md R103 (the spec's own derivation): the table of parity equations, for every N up to 26. -/
def Obligations.ParityEquationsTable : Prop :=
  ∀ s : State, 1 ≤ s.params.n → s.params.n ≤ 26 →
    ∃ cw, exec .encode s = .next { s with enc := { s.enc with cw := cw } } ∧
      ∀ j, j < parityCount s.params.n →
        cw.getLsbD (2 ^ j - 1) =
          xorOver s.enc.d.getLsbD ((parityRows.getD j []).filter fun i => i < s.params.n)

/-- 42_encoder.md R104 (the spec's own derivation): SYND.COLLECT of an encoded word gives `s = 0`. -/
def Obligations.EncodedWordHasZeroSyndrome : Prop :=
  ∀ s : State, EncBuilt s.params →
    ∃ cw, exec .encode s = .next { s with enc := { s.enc with cw := cw } } ∧
      (syndCollect cw).s = 0

/-- 42_encoder.md R106 (the spec's own derivation): ENCODE is injective and linear over GF(2). -/
def Obligations.EncodeInjectiveAndLinear : Prop :=
  ∀ (n : Nat) (d e : BitVec n), 1 ≤ n →
    (encodeWord d = encodeWord e → d = e) ∧
    encodeWord (d ^^^ e) = encodeWord d ^^^ encodeWord e

/-! ## Decoder -/

/-- 43_decoder.md R110-R117 (the outputs for `S > L` are decision D7): DECODE completes for every received
word of a built decoder, every output as its rule gives it; nothing else changes. -/
def Obligations.DecodeOutputsFollowRules : Prop :=
  ∀ s : State, DecBuilt s.params →
    ∃ q : DecPorts (decoderN s.params),
      exec .decode s = .next { s with dec := q } ∧ q.rx = s.dec.rx ∧ DecOk q

/-- 43_decoder.md R113, R114: `err` is 1 exactly when the received word is no codeword, that is when some
recomputed syndrome bit is 1; `uncorr` is 1 exactly when S exceeds L, and then `err` is 1 too. -/
def Obligations.DecodeStatusOutputs : Prop :=
  ∀ s : State, DecBuilt s.params →
    ∃ q : DecPorts (decoderN s.params),
      exec .decode s = .next { s with dec := q } ∧ q.rx = s.dec.rx ∧
      (q.err = true ↔ q.syn.toNat ≠ 0) ∧
      (q.err = true ↔ ∃ j, j < parityCount (decoderN s.params) ∧ blkParity s.dec.rx j = true) ∧
      (q.err = true ↔ ¬ ∃ d, s.dec.rx = encodeWord d) ∧
      (q.uncorr = true ↔ codeLen (decoderN s.params) < q.syn.toNat) ∧
      (q.uncorr = true → q.err = true)

/-- 43_decoder.md R112, R115: S is the sum of the recomputed bits with weight `2^j`, and `corr` is `rx` with
bit `S - 1` inverted when `1 <= S <= L` and `rx` itself otherwise. -/
def Obligations.DecodeFlipsSyndromePosition : Prop :=
  ∀ s : State, DecBuilt s.params →
    ∃ q : DecPorts (decoderN s.params),
      exec .decode s = .next { s with dec := q } ∧
      q.syn.toNat = ∑ j ∈ Finset.range (parityCount (decoderN s.params)),
        (blkParity s.dec.rx j).toNat * 2 ^ j ∧
      q.syn.toNat ≤ 2 ^ parityCount (decoderN s.params) - 1 ∧
      (∀ k, k < codeLen (decoderN s.params) → q.corr.getLsbD k =
        if 1 ≤ q.syn.toNat ∧ q.syn.toNat ≤ codeLen (decoderN s.params) ∧ k = q.syn.toNat - 1
        then !s.dec.rx.getLsbD k else s.dec.rx.getLsbD k) ∧
      (q.syn.toNat = 0 → q.corr = s.dec.rx) ∧
      (codeLen (decoderN s.params) < q.syn.toNat → q.corr = s.dec.rx)

/-- 43_decoder.md R116 (0 for `S > L` is decision D8): the forward error position, a value in `1 .. L` that
names the same bit as position S, or 0. -/
def Obligations.DecodeForwardErrorPosition : Prop :=
  ∀ s : State, DecBuilt s.params →
    ∃ q : DecPorts (decoderN s.params),
      exec .decode s = .next { s with dec := q } ∧ q.rx = s.dec.rx ∧
      (1 ≤ q.syn.toNat → q.syn.toNat ≤ codeLen (decoderN s.params) →
        q.epos.toNat = codeLen (decoderN s.params) - q.syn.toNat + 1 ∧
        1 ≤ q.epos.toNat ∧ q.epos.toNat ≤ codeLen (decoderN s.params) ∧
        forwardPos (codeLen (decoderN s.params)) q.epos.toNat = q.syn.toNat) ∧
      (q.syn.toNat = 0 ∨ codeLen (decoderN s.params) < q.syn.toNat → q.epos.toNat = 0)

/-- 30_encoding.md R59 (the spec's own derivation): some received word is reported uncorrectable exactly when
L is not `2^R - 1`. -/
def Obligations.UncorrectableClassEmptyAtFullLength : Prop :=
  ∀ n, 1 ≤ n →
    ((∃ rx : BitVec (codeLen n), (decodeWord rx).uncorr = true) ↔ codeLen n ≠ 2 ^ parityCount n - 1)

/-- 30_encoding.md R60, 43_decoder.md R118 (the spec's own derivations): S = 0 exactly on codewords, and there
are exactly `2^N` of them. -/
def Obligations.CodewordsAreZeroSyndromeWords : Prop :=
  ∀ n, 1 ≤ n →
    (∀ rx : BitVec (codeLen n), (decodeWord rx).syn = 0 ↔ ∃ d : BitVec n, rx = encodeWord d) ∧
    Nat.card { rx : BitVec (codeLen n) // ∃ d : BitVec n, rx = encodeWord d } = 2 ^ n

/-- 43_decoder.md R118, first case (the spec's own derivation): what ENCODE puts out, DECODE returns unchanged,
with no error reported and the payload extracted. The two words are compared as numbers since their
ports' widths are equal only under the hypothesis. -/
def Obligations.CleanWordDecodesToItself : Prop :=
  ∀ s : State, EncBuilt s.params → DecBuilt s.params → decoderN s.params = s.params.n →
    ∃ cw, exec .encode s = .next { s with enc := { s.enc with cw := cw } } ∧
      ∀ rx : BitVec (codeLen (decoderN s.params)), rx.toNat = cw.toNat →
        ∃ q, exec .decode { s with dec := { s.dec with rx := rx } } = .next { s with dec := q } ∧
          q.syn.toNat = 0 ∧ q.err = false ∧ q.uncorr = false ∧ q.corr = rx ∧ q.epos.toNat = 0 ∧
          q.dout.toNat = s.enc.d.toNat

/-- 43_decoder.md R118 (the spec's own derivation): what ENCODE puts out, with any ONE position
p flipped on the way, DECODE corrects: `S = p`, `err = 1`, `uncorr = 0`, `corr = cw`, `epos = L - p + 1` and
`dout = d`; and a flip of forward position f is reported as `epos = f`. -/
def Obligations.SingleErrorCorrected : Prop :=
  ∀ s : State, EncBuilt s.params → DecBuilt s.params → decoderN s.params = s.params.n →
    ∃ cw, exec .encode s = .next { s with enc := { s.enc with cw := cw } } ∧
      ∀ rx : BitVec (codeLen (decoderN s.params)),
        (∀ p, 1 ≤ p → p ≤ codeLen s.params.n → rx.toNat = (channelFlipPos cw p).toNat →
          ∃ q, exec .decode { s with dec := { s.dec with rx := rx } } = .next { s with dec := q } ∧
            q.syn.toNat = p ∧ q.err = true ∧ q.uncorr = false ∧ q.corr.toNat = cw.toNat ∧
            q.epos.toNat = codeLen s.params.n - p + 1 ∧ q.dout.toNat = s.enc.d.toNat) ∧
        (∀ f, 1 ≤ f → f ≤ codeLen s.params.n → rx.toNat = (channelFlip cw f).toNat →
          ∃ q, exec .decode { s with dec := { s.dec with rx := rx } } = .next { s with dec := q } ∧
            q.epos.toNat = f)

/-- 43_decoder.md R119 (the spec's own derivation): with any positions flipped, S is the XOR of the positions
as numbers. A position listed twice is flipped twice. -/
def Obligations.SyndromeOfErrorSet : Prop :=
  ∀ (n : Nat) (d : BitVec n) (ps : List Nat), 1 ≤ n → (∀ p ∈ ps, 1 ≤ p ∧ p ≤ codeLen n) →
    (decodeWord (ps.foldl channelFlipPos (encodeWord d))).syn.toNat =
      ps.foldl (fun x p => x ^^^ p) 0

/-- 43_decoder.md R119, |E| = 2 (the spec's own derivation): two flips are never reported clean; they are
reported uncorrectable, the word left as received, or a third position is flipped with no sign of it. -/
def Obligations.DoubleErrorMiscorrectedOrReported : Prop :=
  ∀ (n : Nat) (d : BitVec n) (p1 p2 : Nat) (q : DecPorts n), 1 ≤ n →
    1 ≤ p1 → p1 ≤ codeLen n → 1 ≤ p2 → p2 ≤ codeLen n → p1 ≠ p2 →
    q = decodeWord (channelFlipPos (channelFlipPos (encodeWord d) p1) p2) →
      q.syn.toNat = p1 ^^^ p2 ∧ q.syn.toNat ≠ 0 ∧ q.err = true ∧
      (q.syn.toNat ≤ codeLen n → q.uncorr = false ∧ q.syn.toNat ≠ p1 ∧ q.syn.toNat ≠ p2 ∧
        q.corr = channelFlipPos q.rx q.syn.toNat ∧ q.corr ≠ encodeWord d) ∧
      (codeLen n < q.syn.toNat → q.uncorr = true ∧ q.corr = q.rx ∧ q.epos = 0)

/-- 43_decoder.md R119, |E| = 3 (the spec's own example): positions 1, 2 and 3 flipped leave S = 0, and the
wrong word is returned as clean, with a wrong payload. -/
def Obligations.TripleErrorUndetected : Prop :=
  ∀ (n : Nat) (d : BitVec n) (q : DecPorts n), 1 ≤ n →
    q = decodeWord ([1, 2, 3].foldl channelFlipPos (encodeWord d)) →
      q.syn = 0 ∧ q.err = false ∧ q.uncorr = false ∧ q.epos = 0 ∧ q.corr = q.rx ∧
      q.corr ≠ encodeWord d ∧ q.dout ≠ d

/-- 95_test_vectors.md, V-DEC for N = 1: all 8 received words; decoding is a majority vote. -/
def Obligations.SmallestCodeIsMajorityVote : Prop :=
  ∀ (rx : BitVec (codeLen 1)) (a b c : Bool),
    rx.getLsbD 0 = a → rx.getLsbD 1 = b → rx.getLsbD 2 = c →
      (decodeWord rx).dout.getLsbD 0 = (a && b || a && c || b && c) ∧
      (decodeWord rx).uncorr = false

/-- 43_decoder.md R121 (decision D2): a decoder built from a valid length is the decoder of its unique n. -/
def Obligations.DecoderBuiltFromLength : Prop :=
  ∀ (s : State) (n : Nat), 1 ≤ n → s.params.decLen = some (codeLen n) →
    decoderN s.params = n ∧
    ∃ q : DecPorts (decoderN s.params),
      exec .decode s = .next { s with dec := q } ∧ q.rx = s.dec.rx ∧ DecOk q

/-! ## Elaboration, boundary and the whole machine -/

/-- 60_exceptions.md R131: each refused parameter, by its name; INV_SEARCH_BOUND is never raised. -/
def Obligations.RefusedParametersBuildNoBlock : Prop :=
  (∀ s : State,
    (s.params.n < 1 → exec .encode s = .refused (.invalidInput .invEmptyPayload)) ∧
    (s.params.decLen = none → s.params.n < 1 →
      exec .decode s = .refused (.invalidInput .invEmptyPayload)) ∧
    (∀ l, s.params.decLen = some l → ¬ ValidLength l →
      exec .decode s = .refused (.invalidInput .invCodewordLength))) ∧
  (∀ n, n < 1 → parityCountOrRefuse n = .error .invEmptyPayload) ∧
  ∀ n, parityCountOrRefuse n ≠ .error .invSearchBound

/-- Model's choice, log entry 5 (00_scope.md R7 admits no such engine): an engine of no array is refused. -/
def Obligations.EngineWithoutArrayRefused : Prop :=
  ∀ s : State, s.params.le < 1 →
    exec .syndCollect s = .refused .engineLength ∧ exec .syndWrite s = .refused .engineLength

/-- 60_exceptions.md R130, R140: an operation completes exactly when its module is built, whatever its input,
and is otherwise refused with the refusal of that build (R131; for the engine, model's choice, log entry
5). -/
def Obligations.OperationCompletesExactlyWhenBuilt : Prop :=
  (∀ (p : Params) (u : HwUnit), buildRefusal p u = none ↔ UnitBuilt p u) ∧
  ∀ (i : Instr) (s : State),
    ((∃ t, exec i s = .next t) ↔ UnitBuilt s.params i.unit) ∧
    ∀ r, exec i s = .refused r ↔ buildRefusal s.params i.unit = some r

/-- 60_exceptions.md R140: a transaction completes exactly when its word selects an operation and its input
can be driven, and is otherwise refused, for its word first (the order is the model's choice, log entry 13,
the list log entry 2). -/
def Obligations.TransactionRefusedOnlyForWordOrInput : Prop :=
  ∀ (s : State) (t : Transaction) (rest : List Transaction), s.pending = t :: rest →
    ((∃ s', step s = .next s') ↔
      ∃ i s₁, fetch t = .ok i ∧ drive t.unit t.input { s with pending := rest } = .ok s₁) ∧
    ∀ r, step s = .refused r ↔ fetch t = .error r ∨
      ((∃ i, fetch t = .ok i) ∧ drive t.unit t.input { s with pending := rest } = .error r)

/-- Model's choice, log entry 3: a step refuses an empty word, a word whose mode bit is not the one tied in the
module, and a word with bytes after it; whatever the input and the parameters (log entry 13). -/
def Obligations.StepRefusesUndecodableWords : Prop :=
  ∀ (s : State) (t : Transaction) (rest : List Transaction), s.pending = t :: rest →
    (t.word = [] → step s = .refused (.undecodable .noWord)) ∧
    (∀ b bs, t.word = b :: bs → t.unit = .hamEnc → b.getLsbD 0 = false →
      step s = .refused (.undecodable .tiedMode)) ∧
    (∀ b bs, t.word = b :: bs → t.unit = .hamDec → b.getLsbD 0 = true →
      step s = .refused (.undecodable .tiedMode)) ∧
    (∀ b c bs, t.word = b :: c :: bs →
      (t.unit = .hamEnc → b.getLsbD 0 = true) → (t.unit = .hamDec → b.getLsbD 0 = false) →
      step s = .refused (.undecodable .trailingBytes))

/-- 60_exceptions.md R131: a transaction of a module that was never built is refused with that build's refusal,
by name, whether it carries an input or not and whatever the input (that the build is reported before the
input is the model's choice, log entry 13; `engineLength`, log entry 5). -/
def Obligations.StepRefusesUnbuiltModule : Prop :=
  ∀ (s : State) (t : Transaction) (rest : List Transaction) (i : Instr),
    s.pending = t :: rest → decode t.unit t.word = .ok (i, []) →
      (t.unit = .hamEnc → s.params.n < 1 → step s = .refused (.invalidInput .invEmptyPayload)) ∧
      (t.unit = .hamDec → s.params.decLen = none → s.params.n < 1 →
        step s = .refused (.invalidInput .invEmptyPayload)) ∧
      (∀ l, t.unit = .hamDec → s.params.decLen = some l → ¬ ValidLength l →
        step s = .refused (.invalidInput .invCodewordLength)) ∧
      (t.unit = .hamSynd → s.params.le < 1 → step s = .refused .engineLength)

/-- 10_state.md R27, R28: an operation that completes changes the outputs of its own module alone (and the
`mode` port, which is what selects a SYND operation): no input word, no other module, no parameter. -/
def Obligations.OperationFrames : Prop :=
  ∀ s t : State,
    (exec .encode s = .next t → ∃ cw, t = { s with enc := { s.enc with cw := cw } }) ∧
    (exec .decode s = .next t → ∃ q : DecPorts (decoderN s.params),
      q.rx = s.dec.rx ∧ t = { s with dec := q }) ∧
    (exec .syndCollect s = .next t → ∃ sv, t = { s with synd :=
      { a := s.synd.a, mode := false, s := sv, w := s.synd.a } }) ∧
    (exec .syndWrite s = .next t → ∃ sv w, t = { s with synd :=
      { a := s.synd.a, mode := true, s := sv, w := w } })

/-- 20_memory.md R48: the same input word always gives the same outputs, whatever the module's outputs were
before and whatever the other modules carry; and evaluating again changes nothing. -/
def Obligations.EvaluationDeterministicAndIdempotent : Prop :=
  (∀ (i : Instr) (s t : State), exec i s = .next t → exec i t = .next t) ∧
  ∀ (s : State) (e : EncPorts s.params.n) (q : DecPorts (decoderN s.params))
    (y : SyndPorts s.params.le) (ts : List Transaction),
    (∀ r, e.d = s.enc.d → exec .encode s = .next { s with enc := r } →
      exec .encode { s with enc := e, dec := q, synd := y, pending := ts } =
        .next { s with enc := r, dec := q, synd := y, pending := ts }) ∧
    (∀ r, q.rx = s.dec.rx → exec .decode s = .next { s with dec := r } →
      exec .decode { s with enc := e, dec := q, synd := y, pending := ts } =
        .next { s with enc := e, dec := r, synd := y, pending := ts }) ∧
    (∀ i r, i = .syndCollect ∨ i = .syndWrite → y.a = s.synd.a →
      exec i s = .next { s with synd := r } →
      exec i { s with enc := e, dec := q, synd := y, pending := ts } =
        .next { s with enc := e, dec := q, synd := r, pending := ts })

/-- 20_memory.md R46, 70_reset_and_hazards.md R154: ENCODE and DECODE in either order leave the same state. -/
def Obligations.EncodeAndDecodeCommute : Prop :=
  ∀ s : State, EncBuilt s.params → DecBuilt s.params →
    ∃ t₁ t₂ t, exec .encode s = .next t₁ ∧ exec .decode t₁ = .next t ∧
      exec .decode s = .next t₂ ∧ exec .encode t₂ = .next t

/-- Model's choice, log entry 10, for 70_reset_and_hazards.md R150 and 10_state.md R29: with no transaction, every
output becomes its function of the inputs the ports carry, from whatever it was before. -/
def Obligations.IdleStepSettlesOutputs : Prop :=
  ∀ s : State, AllBuilt s.params → s.pending = [] →
    ∃ (cw : BitVec (codeLen s.params.n)) (q : DecPorts (decoderN s.params)) (y : SyndPorts s.params.le),
      step s = .next { s with enc := { s.enc with cw := cw }, dec := q, synd := y } ∧
      EncOk { s.enc with cw := cw } ∧ q.rx = s.dec.rx ∧ DecOk q ∧
      y.a = s.synd.a ∧ y.mode = s.synd.mode ∧ SyndOk y

/-- Model's choice, log entry 10: with no transaction, a machine with a refused parameter answers the first
refusal, HAM_ENC's before HAM_DEC's before HAM_SYND's (the names are 60_exceptions.md R131's; `engineLength`,
log entry 5). -/
def Obligations.IdleStepAnswersFirstRefusal : Prop :=
  ∀ s : State, s.pending = [] →
    (¬ EncBuilt s.params → step s = .refused (.invalidInput .invEmptyPayload)) ∧
    (EncBuilt s.params → ¬ DecBuilt s.params → step s = .refused (.invalidInput .invCodewordLength)) ∧
    (EncBuilt s.params → DecBuilt s.params → ¬ SyndBuilt s.params → step s = .refused .engineLength)

/-- Model's choice, log entry 10, for the rule "Evaluating the same input again changes nothing" (20_memory.md
R48): the step with no transaction leaves a settled machine exactly as it is, so the closed forms leave no
output bit open. -/
def Obligations.SettledMachineStaysPut : Prop :=
  ∀ s : State, AllBuilt s.params → s.pending = [] → Settled s → step s = .next s

/-- 10_state.md R27, R29: every step keeps every output the function of its module's inputs. -/
def Obligations.EveryStepKeepsOutputsSettled : Prop :=
  ∀ s t : State, Settled s → step s = .next t → Settled t

/-- The state after reset (its inputs at 0, model's choice, log entry 1) is settled and every module of it is
built. -/
def Obligations.ResetIsSettledAndBuilt : Prop :=
  Settled State.reset ∧ AllBuilt State.reset.params

/-- 10_state.md R22, R30: no step changes an elaboration parameter. -/
def Obligations.ParametersNeverChange : Prop :=
  ∀ s t : State, step s = .next t → t.params = s.params
end

