-- ==== Sys2Proof/Laws/Bits.lean ====
section
/-! SUPPORT. The bits of each shared operation's result, and the XOR over a list of positions. -/

namespace Sys2Proof.Machine

theorem getLsbD_setBit {l : Nat} (v : BitVec l) (k i : Nat) (b : Bit) :
    (setBit v k b).getLsbD i = if i = k ∧ k < l then b else v.getLsbD i := by
  unfold setBit
  by_cases hi : i < l <;> by_cases hk : k = i <;> cases b <;>
    simp_all [eq_comm]

theorem getLsbD_flipMask (l S i : Nat) :
    (flipMask l S).getLsbD i = decide (1 ≤ S ∧ S ≤ l ∧ i = S - 1) := by
  unfold flipMask
  by_cases h : 1 ≤ S ∧ S ≤ l
  · rw [if_pos h, BitVec.getLsbD_twoPow, ← Bool.decide_and, decide_eq_decide]
    omega
  · rw [if_neg h, eq_comm, show (0 : BitVec l).getLsbD i = false by simp, decide_eq_false_iff_not]
    omega

theorem getLsbD_channelFlipPos {l : Nat} (w : BitVec l) (p i : Nat) :
    (channelFlipPos w p).getLsbD i = (w.getLsbD i ^^ decide (1 ≤ p ∧ p ≤ l ∧ i = p - 1)) := by
  rw [channelFlipPos, BitVec.getLsbD_xor, getLsbD_flipMask]

theorem getLsbD_place {n : Nat} (d : BitVec n) (k : Nat) :
    (place d).getLsbD k =
      if k < codeLen n then (if isPow2 (k + 1) then false else d.getLsbD (didx (k + 1))) else false := by
  rw [place, BitVec.getLsbD_ofFnLE]
  by_cases h : k < codeLen n <;> simp [h]

theorem getLsbD_extract {n : Nat} (c : BitVec (codeLen n)) (i : Nat) :
    (extract c).getLsbD i = (decide (i < n) && c.getLsbD (dpos i - 1)) := by
  rw [extract, BitVec.getLsbD_ofFnLE]
  by_cases h : i < n <;> simp [h]

theorem getLsbD_syndCollect_s {l : Nat} (a : BitVec l) (j : Nat) :
    (syndCollect a).s.getLsbD j = (decide (j < indexCount l) && foldIndex a j) := by
  rw [syndCollect, BitVec.getLsbD_ofFnLE]
  by_cases h : j < indexCount l <;> simp [h]

@[simp] theorem xorOver_nil (f : Nat → Bit) : xorOver f [] = false := rfl

@[simp] theorem xorOver_cons (f : Nat → Bit) (p : Nat) (ps : List Nat) :
    xorOver f (p :: ps) = (f p ^^ xorOver f ps) := rfl

theorem xorOver_append (f : Nat → Bit) (ps qs : List Nat) :
    xorOver f (ps ++ qs) = (xorOver f ps ^^ xorOver f qs) := by
  induction ps with
  | nil => simp
  | cons p ps ih => simp [ih]

/-- The order of an XOR does not matter (00_scope.md R13). -/
theorem xorOver_perm (f : Nat → Bit) {ps qs : List Nat} (h : ps.Perm qs) :
    xorOver f ps = xorOver f qs := by
  induction h with
  | nil => rfl
  | cons _ _ ih => simp [ih]
  | swap a b _ => simp [Bool.xor_left_comm]
  | trans _ _ ih₁ ih₂ => rw [ih₁, ih₂]

theorem xorOver_xor (f g : Nat → Bit) (ps : List Nat) :
    xorOver (fun p => f p ^^ g p) ps = (xorOver f ps ^^ xorOver g ps) := by
  induction ps with
  | nil => rfl
  | cons p ps ih => simp [ih, Bool.xor_left_comm]

/-- An XOR reads its function at the listed positions only. -/
theorem xorOver_congr {f g : Nat → Bit} {ps : List Nat} (h : ∀ p ∈ ps, f p = g p) :
    xorOver f ps = xorOver g ps := by
  induction ps with
  | nil => rfl
  | cons p ps ih =>
    rw [xorOver_cons, xorOver_cons, h p (by simp), ih fun q hq => h q (by simp [hq])]

/-- Counting from either end names the same position, on `1 .. l`. -/
theorem forwardPos_forwardPos {l f : Nat} (h : f ≤ l) : forwardPos l (forwardPos l f) = f := by
  unfold forwardPos
  omega

theorem mem_positions {l p : Nat} : p ∈ positions l ↔ 1 ≤ p ∧ p ≤ l := by
  rw [positions, List.mem_range'_1]
  omega

theorem mem_blk {l j p : Nat} : p ∈ blk l j ↔ (1 ≤ p ∧ p ≤ l) ∧ posBit p j = true := by
  rw [blk, List.mem_filter, mem_positions]

/-- `bit(p, j)` is bit j of the number p. -/
theorem posBit_eq_testBit (p j : Nat) : posBit p j = p.testBit j := by
  rw [posBit, Nat.testBit_eq_decide_div_mod_eq]

end Sys2Proof.Machine
end

