-- ==== Sys2Proof/Laws/PerInstr.lean ====
section
/-! SUPPORT. Facts about every operation as syntax, one lemma per constructor. -/

namespace Sys2Proof.Laws.TableWord

/-- The operation's encoded word is one byte, is its row's pattern under the table's mask, and selects the
operation again on its module. -/
def Statement (i : Instr) : Prop :=
  ∃ b, encode i = [b] ∧ modeBit b = decide (i = .syndWrite ∨ i = .encode) ∧
    decode i.unit [b] = .ok (i, [])

theorem syndCollect : Statement .syndCollect := ⟨_, rfl, by decide, rfl⟩
theorem syndWrite : Statement .syndWrite := ⟨_, rfl, by decide, rfl⟩
theorem encode : Statement .encode := ⟨_, rfl, by decide, rfl⟩
theorem decode : Statement .decode := ⟨_, rfl, by decide, rfl⟩

end Sys2Proof.Laws.TableWord
end

