-- ==== Sys2Proof/Laws/State.lean ====
section
/-! SUPPORT. One lemma per field per update, so that no proof unfolds a record update. -/

namespace Sys2Proof.Machine

section Updates

variable (s : State)

@[simp] theorem evalEnc_params : (evalEnc s).params = s.params := rfl
@[simp] theorem evalEnc_enc : (evalEnc s).enc = settledEnc s.enc.d := rfl
@[simp] theorem evalEnc_dec : (evalEnc s).dec = s.dec := rfl
@[simp] theorem evalEnc_synd : (evalEnc s).synd = s.synd := rfl
@[simp] theorem evalEnc_pending : (evalEnc s).pending = s.pending := rfl

@[simp] theorem evalDec_params : (evalDec s).params = s.params := rfl
@[simp] theorem evalDec_enc : (evalDec s).enc = s.enc := rfl
@[simp] theorem evalDec_dec : (evalDec s).dec = decodeWord s.dec.rx := rfl
@[simp] theorem evalDec_synd : (evalDec s).synd = s.synd := rfl
@[simp] theorem evalDec_pending : (evalDec s).pending = s.pending := rfl

@[simp] theorem evalSynd_params (m : Bit) : (evalSynd m s).params = s.params := rfl
@[simp] theorem evalSynd_enc (m : Bit) : (evalSynd m s).enc = s.enc := rfl
@[simp] theorem evalSynd_dec (m : Bit) : (evalSynd m s).dec = s.dec := rfl
@[simp] theorem evalSynd_synd (m : Bit) : (evalSynd m s).synd = settledSynd s.synd.a m := rfl
@[simp] theorem evalSynd_pending (m : Bit) : (evalSynd m s).pending = s.pending := rfl

@[simp] theorem settle_params : (settle s).params = s.params := rfl
@[simp] theorem settle_enc : (settle s).enc = settledEnc s.enc.d := rfl
@[simp] theorem settle_dec : (settle s).dec = decodeWord s.dec.rx := rfl
@[simp] theorem settle_synd : (settle s).synd = settledSynd s.synd.a s.synd.mode := rfl
@[simp] theorem settle_pending : (settle s).pending = s.pending := rfl

end Updates

@[simp] theorem settledEnc_d {n : Nat} (d : BitVec n) : (settledEnc d).d = d := rfl
@[simp] theorem settledEnc_cw {n : Nat} (d : BitVec n) : (settledEnc d).cw = encodeWord d := rfl

section Engine

variable {l : Nat} (a : BitVec l) (mode : Bit)

@[simp] theorem settledSynd_a : (settledSynd a mode).a = a := rfl
@[simp] theorem settledSynd_mode : (settledSynd a mode).mode = mode := rfl
@[simp] theorem settledSynd_s : (settledSynd a mode).s = (syndEngine mode a).s := rfl
@[simp] theorem settledSynd_w : (settledSynd a mode).w = (syndEngine mode a).w := rfl

@[simp] theorem syndEngine_write : syndEngine modeWrite a = syndWrite a := rfl
@[simp] theorem syndEngine_collect : syndEngine modeCollect a = syndCollect a := rfl
@[simp] theorem syndCollect_w : (syndCollect a).w = a := rfl

@[simp] theorem writeBack_s (out : SyndOut l) (j : Nat) :
    (writeBack out j).s = setBit out.s j (foldIndex out.w j) := rfl
@[simp] theorem writeBack_w (out : SyndOut l) (j : Nat) :
    (writeBack out j).w = setBit out.w (2 ^ j - 1) (foldIndex out.w j) := rfl

end Engine

section DecoderPorts

variable {n : Nat} (rx : BitVec (codeLen n))

@[simp] theorem decodeWord_rx : (decodeWord rx).rx = rx := rfl
@[simp] theorem decodeWord_syn : (decodeWord rx).syn = syndromeOf rx := rfl
@[simp] theorem decodeWord_err : (decodeWord rx).err = errFlag (syndromeOf rx).toNat := rfl
@[simp] theorem decodeWord_uncorr :
    (decodeWord rx).uncorr = uncorrFlag (codeLen n) (syndromeOf rx).toNat := rfl
@[simp] theorem decodeWord_corr :
    (decodeWord rx).corr = rx ^^^ flipMask (codeLen n) (syndromeOf rx).toNat := rfl
@[simp] theorem decodeWord_epos : (decodeWord rx).epos =
    BitVec.ofNat (parityCount n) (errorPosition (codeLen n) (syndromeOf rx).toNat) := rfl
@[simp] theorem decodeWord_dout : (decodeWord rx).dout = extract (decodeWord rx).corr := rfl

end DecoderPorts

end Sys2Proof.Machine
end

