-- ==== Sys2Proof/Laws/Step.lean ====
section
/-! SUPPORT. What each shared operation of the step can do, once each; every invariant goes through these. -/

namespace Sys2Proof.Machine

/-- An evaluation that completes is of a built module, and is the evaluation. -/
theorem onBuilt_eq_next {u : HwUnit} {eval : State → State} {s t : State} :
    onBuilt u eval s = .next t ↔ buildRefusal s.params u = none ∧ t = eval s := by
  unfold onBuilt
  cases buildRefusal s.params u <;> simp [eq_comm]

/-- An evaluation is refused only for the build. -/
theorem onBuilt_eq_refused {u : HwUnit} {eval : State → State} {s : State} {r : Refusal} :
    onBuilt u eval s = .refused r ↔ buildRefusal s.params u = some r := by
  unfold onBuilt
  cases buildRefusal s.params u <;> simp

/-- The evaluation each operation performs. -/
def evalOf : Instr → State → State
  | .syndCollect => evalSynd modeCollect
  | .syndWrite => evalSynd modeWrite
  | .encode => evalEnc
  | .decode => evalDec

/-- Every operation is the evaluation of its module, once built. -/
theorem exec_eq_onBuilt (i : Instr) (s : State) : exec i s = onBuilt i.unit (evalOf i) s := by
  cases i <;> rfl

theorem exec_eq_next {i : Instr} {s t : State} :
    exec i s = .next t ↔ buildRefusal s.params i.unit = none ∧ t = evalOf i s := by
  rw [exec_eq_onBuilt, onBuilt_eq_next]

@[simp] theorem evalOf_params (i : Instr) (s : State) : (evalOf i s).params = s.params := by
  cases i <;> rfl

@[simp] theorem evalOf_pending (i : Instr) (s : State) : (evalOf i s).pending = s.pending := by
  cases i <;> rfl

/-- A word decoded for a module selects an operation of that module. -/
theorem decode_unit {u : HwUnit} {bs rest : List Byte} {i : Instr}
    (h : decode u bs = .ok (i, rest)) : i.unit = u := by
  cases bs with
  | nil => cases u <;> cases h
  | cons b bs =>
    cases u <;> simp only [decode] at h
    · cases h
      split <;> rfl
    · split at h <;> cases h
      rfl
    · split at h <;> cases h
      rfl

/-- A word is fetched exactly when it decodes with nothing left over. -/
theorem fetch_eq_ok {t : Transaction} {i : Instr} :
    fetch t = .ok i ↔ decode t.unit t.word = .ok (i, []) := by
  unfold fetch
  split <;> simp_all

/-- All that a driven input can change: the input word of the module driven. -/
theorem drive_eq_ok {u : HwUnit} {input : Option (List Char)} {s t : State}
    (h : drive u input s = .ok t) :
    buildRefusal s.params u = none ∧
    ((input = none ∧ t = s) ∨
     (∃ cs, input = some cs ∧
      ((u = .hamEnc ∧ ∃ v, wordOfWritten s.params.n cs = .ok v ∧
          t = { s with enc := { s.enc with d := v } }) ∨
       (u = .hamDec ∧ ∃ v, wordOfWritten (codeLen (decoderN s.params)) cs = .ok v ∧
          t = { s with dec := { s.dec with rx := v } }) ∨
       (u = .hamSynd ∧ ∃ v, wordOfWritten s.params.le cs = .ok v ∧
          t = { s with synd := { s.synd with a := v } })))) := by
  unfold drive at h
  split at h
  · cases h
  · cases h
    exact ⟨‹_›, .inl ⟨rfl, rfl⟩⟩
  · refine ⟨‹_›, .inr ⟨_, rfl, ?_⟩⟩
    unfold driveWord at h
    split at h <;> split at h <;> cases h
    · exact .inl ⟨rfl, _, ‹_›, rfl⟩
    · exact .inr (.inl ⟨rfl, _, ‹_›, rfl⟩)
    · exact .inr (.inr ⟨rfl, _, ‹_›, rfl⟩)

/-- Driving an input changes no parameter, so a module stays built. -/
theorem drive_params {u : HwUnit} {input : Option (List Char)} {s t : State}
    (h : drive u input s = .ok t) : t.params = s.params := by
  obtain ⟨-, ⟨-, rfl⟩ | ⟨cs, -, ⟨-, v, -, rfl⟩ | ⟨-, v, -, rfl⟩ | ⟨-, v, -, rfl⟩⟩⟩ := drive_eq_ok h <;> rfl

/-- A driven input is refused for the build of its module first, then for its word. -/
theorem drive_eq_error {u : HwUnit} {input : Option (List Char)} {s : State} {r : Refusal} :
    drive u input s = .error r ↔
      buildRefusal s.params u = some r ∨
      (buildRefusal s.params u = none ∧ ∃ cs, input = some cs ∧ driveWord u cs s = .error r) := by
  unfold drive
  cases buildRefusal s.params u <;> cases input <;> simp

/-- A written word is refused for a character that is not binary first, then for its width. -/
theorem wordOfWritten_eq_error {w : Nat} {cs : List Char} {r : Refusal} :
    wordOfWritten w cs = .error r ↔
      (readBits cs = none ∧ r = .nonBinary) ∨
      (∃ bs, readBits cs = some bs ∧ bs.length ≠ w ∧ r = .portWidth) := by
  unfold wordOfWritten
  cases readBits cs with
  | none => simp [eq_comm]
  | some bs =>
    by_cases h : bs.length = w
    · simp [h]
    · simp only [h, if_false, Except.error.injEq, reduceCtorEq, false_and, false_or, Option.some.injEq]
      exact ⟨fun e => ⟨bs, rfl, h, e.symm⟩, fun ⟨_, _, _, e⟩ => e.symm⟩

/-- A transaction that completes: its word was fetched, its input driven, its operation performed. -/
theorem transact_eq_next {t : Transaction} {s s' : State} :
    transact t s = .next s' ↔
      ∃ i s₁, fetch t = .ok i ∧ drive t.unit t.input s = .ok s₁ ∧ exec i s₁ = .next s' := by
  unfold transact
  cases fetch t <;> simp
  cases drive t.unit t.input s <;> simp

/-- Idling completes exactly when every module is built, and settles every output. -/
theorem idle_eq_next {s t : State} : idle s = .next t ↔ firstRefusal s.params = none ∧ t = settle s := by
  unfold idle
  cases firstRefusal s.params <;> simp [eq_comm]

/-- All that a step can do. -/
theorem step_cases {s s' : State} (h : step s = .next s') :
    (s.pending = [] ∧ firstRefusal s.params = none ∧ s' = settle s) ∨
    (∃ t rest i s₁, s.pending = t :: rest ∧ fetch t = .ok i ∧
      drive t.unit t.input { s with pending := rest } = .ok s₁ ∧
      buildRefusal s₁.params i.unit = none ∧ s' = evalOf i s₁) := by
  unfold step at h
  split at h
  · exact .inl ⟨‹_›, idle_eq_next.1 h⟩
  · obtain ⟨i, s₁, hf, hd, he⟩ := transact_eq_next.1 h
    exact .inr ⟨_, _, i, s₁, ‹_›, hf, hd, exec_eq_next.1 he⟩

end Sys2Proof.Machine
end

