-- ==== Sys2Proof/Tests/Slice0.lean ====
section
/-! SUPPORT. Tests, and a witness for the hypotheses of every statement that has any. Every expected value is
the spec's: the vectors of 95_test_vectors.md and the tables and examples of the rules named. -/

namespace Sys2Proof.Tests

open Machine Safety

/-- A machine with these parameters, every port at 0 and no transaction. -/
def bench (n : Nat) (decLen : Option Nat) (le : Nat) (pending : List Transaction := []) : State where
  params := ⟨n, decLen, le⟩
  enc := { d := 0, cw := 0 }
  dec := { rx := 0, syn := 0, err := false, uncorr := false, corr := 0, epos := 0, dout := 0 }
  synd := { a := 0, mode := false, s := 0, w := 0 }
  pending := pending

/-- HAM_SYND of length le with `a` driven. -/
def synd (le a : Nat) : State :=
  { bench 1 none le with synd := { a := BitVec.ofNat _ a, mode := false, s := 0, w := 0 } }

/-- HAM_ENC of width n with `d` driven. -/
def enc (n d : Nat) : State :=
  { bench n none 1 with enc := { d := BitVec.ofNat _ d, cw := 0 } }

/-- HAM_DEC with `rx` driven. -/
def dec (n : Nat) (decLen : Option Nat) (rx : Nat) : State :=
  let s := bench n decLen 1
  { s with dec := { s.dec with rx := BitVec.ofNat _ rx } }

/-- What `f` reads of the state an outcome goes on in. -/
def seen {α : Type} (f : State → α) : Host.Outcome State Fault Refusal → Option α
  | .next t => some (f t)
  | _ => none

/-- Why an outcome is refused. -/
def why : Host.Outcome State Fault Refusal → Option Refusal
  | .refused r => some r
  | _ => none

/-- `s` and `w`. -/
def syndOuts (t : State) : Nat × Nat := (t.synd.s.toNat, t.synd.w.toNat)

/-- `syn`, `err`, `uncorr`, `corr`, `epos` and `dout`. -/
def decOuts (t : State) : Nat × Bool × Bool × Nat × Nat × Nat :=
  (t.dec.syn.toNat, t.dec.err, t.dec.uncorr, t.dec.corr.toNat, t.dec.epos.toNat, t.dec.dout.toNat)

/-! ## Decoding, from opcode_table.json -/

theorem test_decode_syndCollect : decode .hamSynd [0b00000000] = .ok (.syndCollect, []) := by rfl
theorem test_decode_syndWrite : decode .hamSynd [0b00000001] = .ok (.syndWrite, []) := by rfl
theorem test_decode_encode : decode .hamEnc [0b00000001] = .ok (.encode, []) := by rfl
theorem test_decode_decode : decode .hamDec [0b00000000] = .ok (.decode, []) := by rfl

/-- Mask 0x1: the byte's other bits are not part of the word. -/
theorem test_decode_mask : decode .hamSynd [0b11111110] = .ok (.syndCollect, []) := by rfl

theorem test_decodeTableWord :
    decodeTableWord 8 0 = some .syndCollect ∧ decodeTableWord 8 1 = some .syndWrite := by decide

/-! ## WellFormed refuses each ill-formed term -/

theorem test_wf_accepts : Params.wellFormed ⟨1, some 3, 1⟩ = true ∧
    Transaction.wellFormed ⟨4, none, 7⟩ ⟨.hamDec, [0], some "0110101".toList⟩ = true := by decide
theorem test_wf_empty_payload : Params.wellFormed ⟨0, none, 1⟩ = false := by decide
theorem test_wf_codeword_length :
    ∀ l ∈ [1, 2, 4, 8, 16], Params.wellFormed ⟨1, some l, 1⟩ = false := by decide
theorem test_wf_engine_length : Params.wellFormed ⟨1, none, 0⟩ = false := by decide
theorem test_wf_no_word : Transaction.wellFormed ⟨4, none, 7⟩ ⟨.hamSynd, [], none⟩ = false := by decide
theorem test_wf_tied_mode : Transaction.wellFormed ⟨4, none, 7⟩ ⟨.hamEnc, [0], none⟩ = false := by decide
theorem test_wf_trailing : Transaction.wellFormed ⟨4, none, 7⟩ ⟨.hamSynd, [0, 0], none⟩ = false := by decide
theorem test_wf_binary :
    Transaction.wellFormed ⟨4, none, 7⟩ ⟨.hamEnc, [1], some "10x1".toList⟩ = false := by decide
theorem test_wf_width :
    Transaction.wellFormed ⟨4, none, 7⟩ ⟨.hamEnc, [1], some "10111".toList⟩ = false := by decide

/-! ## The operations -/

/-- V-SYND-2 (the source's detection example). -/
theorem test_syndCollect_detection :
    seen syndOuts (exec .syndCollect (synd 15 0b101011111010100)) = some (0b0011, 0b101011111010100) := by
  decide

/-- V-SYND-6: no index visited. -/
theorem test_syndCollect_one_bit :
    seen syndOuts (exec .syndCollect (synd 1 1)) = some (0, 1) := by decide

/-- V-SYND-2w: the fold starts from the parity bit driven, not from 0. -/
theorem test_syndWrite_nonzero_parity :
    seen syndOuts (exec .syndWrite (synd 15 0b101011111010100)) = some (0b0011, 0b101011101010111) := by
  decide +kernel

/-- V-SYND-7: a length of no codeword; position 4 is not treated as parity. -/
theorem test_syndWrite_power_of_two :
    seen syndOuts (exec .syndWrite (synd 4 0b1111)) = some (0b00, 0b1100) := by decide

/-- V-ENC-12 (V-L1-2), the source's payload. -/
theorem test_encode_source_payload :
    seen (fun t => t.enc.cw.toNat) (exec .encode (enc 11 0b10101111010)) = some 0b101011111010000 := by
  decide +kernel

/-- V-ENC-13: R = 5, L = 31. -/
theorem test_encode_wide :
    seen (fun t => t.enc.cw.toNat) (exec .encode (enc 26 0b10110011100011110000111110)) =
      some 0b1011001110001111100001101110000 := by decide +kernel

/-- V-L1-3. -/
theorem test_decode_corrects :
    seen decOuts (exec .decode (dec 11 none 0b101011111010100)) =
      some (0b0011, true, false, 0b101011111010000, 13, 0b10101111010) := by decide

/-- V-DEC-15, S > L, in a decoder built from L = 9. -/
theorem test_decode_beyond_length :
    seen decOuts (exec .decode (dec 1 (some 9) 0b100110110)) =
      some (0b1011, true, true, 0b100110110, 0, 0b10111) := by decide

/-! ## The functions they share -/

/-- V-PC. -/
theorem test_parityCount :
    [1, 2, 3, 4, 5, 11, 12, 26, 27, 57, 58, 120, 121, 247, 248].map (fun n => (parityCount n, codeLen n)) =
      [(2, 3), (3, 5), (3, 6), (3, 7), (4, 9), (4, 15), (5, 17), (5, 31), (6, 33), (6, 63), (7, 65),
       (7, 127), (8, 129), (8, 255), (9, 257)] := by decide

/-- 30_encoding.md R58. -/
theorem test_validLength :
    (List.range 19).filter validLength = [3, 5, 6, 7, 9, 10, 11, 12, 13, 14, 15, 17, 18] := by decide

/-- 30_encoding.md R52, the table, at the ends of its runs. -/
theorem test_dpos :
    [0, 1, 3, 4, 10, 11, 25, 26, 55].map dpos = [3, 5, 7, 9, 15, 17, 31, 33, 62] := by decide

/-- 41_syndrome_engine.md R89 for L = 9. -/
theorem test_blk :
    (List.range 4).map (blk 9) = [[1, 3, 5, 7, 9], [2, 3, 6, 7], [4, 5, 6, 7], [8, 9]] := by decide

/-- 41_syndrome_engine.md R88 for L = 15: 4 trees of 8 inputs, 28 gates, depth 3. -/
theorem test_trees :
    ((List.range 4).filterMap (syndromeTree 15)).map (fun t => (treeGates t, treeDepth t)) =
      [(7, 3), (7, 3), (7, 3), (7, 3)] := by decide

/-- V-L1-5, p = 15: forward position 1. -/
theorem test_channelFlip :
    channelFlip (0b101011111010000 : BitVec 15) 1 = 0b001011111010000 := by decide

/-- log entry 12: no position outside the word, counted from either end, is flipped. -/
theorem test_channel_outside_word :
    ∀ k ∈ [0, 16, 17], channelFlip (0b101011111010000 : BitVec 15) k = 0b101011111010000 ∧
      channelFlipPos (0b101011111010000 : BitVec 15) k = 0b101011111010000 := by decide

/-! ## Steps -/

/-- `DECODE 0b0110101` of program P2: a silent miscorrection. -/
theorem test_step_drives_and_decodes :
    seen decOuts (step (bench 4 none 1 [⟨.hamDec, [0], some "0110101".toList⟩])) =
      some (0b001, true, false, 0b0110100, 7, 0b0111) := by decide

/-- The table's words run as the first operation after reset. -/
theorem test_step_from_reset :
    seen (fun t => t.synd.mode) (step (State.reset.withFetchWord 8 1)) = some true ∧
    seen (fun t => t.synd.mode) (step (State.reset.withFetchWord 8 0)) = some false := by decide

theorem test_step_refuses_metavalue :
    why (step (bench 4 none 1 [⟨.hamEnc, [1], some "10z1".toList⟩])) = some .nonBinary := by decide
theorem test_step_refuses_width :
    why (step (bench 4 none 1 [⟨.hamEnc, [1], some "101".toList⟩])) = some .portWidth := by decide
theorem test_step_refuses_empty_payload :
    why (step (bench 0 none 1 [⟨.hamEnc, [1], none⟩])) = some (.invalidInput .invEmptyPayload) := by decide
theorem test_step_refuses_tied_mode :
    why (step (bench 4 none 1 [⟨.hamDec, [1], none⟩])) = some (.undecodable .tiedMode) := by decide

/-! ## Witnesses: hypotheses of the statements, met together -/

/-- N = 1: every port carries a word of V-ENC-2 and of V-DEC's N = 1 table (rx = 110), and the engine holds
a codeword. -/
def demo (pending : List Transaction) : State where
  params := ⟨1, none, 3⟩
  enc := { d := 1, cw := 0b111 }
  dec := { rx := 0b110, syn := 0b01, err := true, uncorr := false, corr := 0b111, epos := 3, dout := 1 }
  synd := { a := 0b111, mode := true, s := 0b00, w := 0b100 }
  pending := pending

theorem built_of_least (ts : List Transaction) : AllBuilt (bench 1 none 1 ts).params :=
  ⟨Nat.le_refl 1, Nat.le_refl 1, Nat.le_refl 1⟩

theorem validLength_fifteen : ValidLength 15 := ⟨11, by decide, by decide⟩

theorem demo_built (ts : List Transaction) : AllBuilt (demo ts).params :=
  ⟨Nat.le_refl 1, Nat.le_refl 1, (by decide : 1 ≤ 3)⟩

theorem demo_settled (ts : List Transaction) : Settled (demo ts) := by
  show Settled (demo [])
  unfold Settled EncOk DecOk SyndOk
  decide

theorem witness_StepRunsDecodedTransaction :
    ∃ (s : State) (t : Transaction) (rest : List Transaction) (i : Instr) (s' : State), s.pending = t :: rest ∧ decode t.unit t.word = .ok (i, []) ∧
      drive t.unit t.input { s with pending := rest } = .ok s' ∧ t.input = none :=
  ⟨bench 1 none 1 [⟨.hamEnc, [1], none⟩], _, _, _, _, rfl, rfl, rfl, rfl⟩

theorem witness_StepRunsDecodedTransaction_driven :
    ∃ (s : State) (t : Transaction) (rest : List Transaction) (i : Instr) (s' : State), s.pending = t :: rest ∧ decode t.unit t.word = .ok (i, []) ∧
      drive t.unit t.input { s with pending := rest } = .ok s' ∧ t.input = some ['1'] :=
  ⟨bench 1 none 1 [⟨.hamEnc, [1], some ['1']⟩], _, _, _, _, rfl, rfl, rfl, rfl⟩

theorem witness_PlacedTableWordRunsNext : decodeTableWord 8 1 = some .syndWrite := by decide

theorem witness_StepDrivesWrittenWord_enc :
    ∃ (s : State) (v : BitVec s.params.n) (word : List Byte) (rest : List Transaction),
      EncBuilt s.params ∧ decode .hamEnc word = .ok (.encode, []) ∧
      s.pending = ⟨.hamEnc, word, some (writtenOf v)⟩ :: rest :=
  ⟨bench 1 none 1 [⟨.hamEnc, [1], some (writtenOf (1 : BitVec 1))⟩], (1 : BitVec 1), [1], [],
    (built_of_least _).1, rfl, rfl⟩

theorem witness_StepDrivesWrittenWord_dec :
    ∃ (s : State) (v : BitVec (codeLen (decoderN s.params))) (word : List Byte) (rest : List Transaction),
      DecBuilt s.params ∧ decode .hamDec word = .ok (.decode, []) ∧
      s.pending = ⟨.hamDec, word, some (writtenOf v)⟩ :: rest :=
  ⟨bench 1 none 1 [⟨.hamDec, [0], some (writtenOf (6 : BitVec (codeLen 1)))⟩], (6 : BitVec (codeLen 1)),
    [0], [], (built_of_least _).2.1, rfl, rfl⟩

theorem witness_StepDrivesWrittenWord_synd :
    ∃ (s : State) (v : BitVec s.params.le) (word : List Byte) (rest : List Transaction) (i : Instr),
      SyndBuilt s.params ∧ decode .hamSynd word = .ok (i, []) ∧
      s.pending = ⟨.hamSynd, word, some (writtenOf v)⟩ :: rest :=
  ⟨bench 1 none 1 [⟨.hamSynd, [1], some (writtenOf (1 : BitVec 1))⟩], (1 : BitVec 1), [1], [], .syndWrite,
    (built_of_least _).2.2, rfl, rfl⟩

/-- The driven encoder is built and the engine beside it is not. -/
theorem witness_BoundaryRefusesBadWords_char :
    ∃ (s : State) (t : Transaction) (rest : List Transaction) (i : Instr) (cs : List Char),
      UnitBuilt s.params t.unit ∧ s.pending = t :: rest ∧ decode t.unit t.word = .ok (i, []) ∧
      t.input = some cs ∧ ∃ c ∈ cs, c ≠ '0' ∧ c ≠ '1' :=
  ⟨bench 1 none 0 [⟨.hamEnc, [1], some ['x']⟩], ⟨.hamEnc, [1], some ['x']⟩, [], .encode, ['x'],
    Nat.le_refl 1, rfl, rfl, rfl,
    'x', by simp, by simp, by simp⟩

theorem witness_BoundaryRefusesBadWords_width :
    ∃ (s : State) (t : Transaction) (rest : List Transaction) (i : Instr) (cs : List Char),
      UnitBuilt s.params t.unit ∧ s.pending = t :: rest ∧ decode t.unit t.word = .ok (i, []) ∧
      t.input = some cs ∧ (∀ c ∈ cs, c = '0' ∨ c = '1') ∧ cs.length ≠ inputWidth s.params t.unit :=
  ⟨bench 1 none 0 [⟨.hamEnc, [1], some ['1', '0']⟩], ⟨.hamEnc, [1], some ['1', '0']⟩, [], .encode,
    ['1', '0'], Nat.le_refl 1, rfl, rfl, rfl,
    by simp, by decide⟩

/-- The driven decoder is built from a length; the encoder and the engine beside it are not built. -/
theorem witness_WellFormedTransactionReturns :
    ∃ (s : State) (t : Transaction) (rest : List Transaction),
      UnitBuilt s.params t.unit ∧ t.wellFormed s.params = true ∧ s.pending = t :: rest :=
  ⟨bench 0 (some 3) 0 [⟨.hamDec, [0], some "110".toList⟩], ⟨.hamDec, [0], some "110".toList⟩, [],
    (⟨1, by decide, by decide⟩ : ValidLength 3), by decide, rfl⟩

/-- A transaction that completes, and one refused for its word, its build and its input. -/
theorem witness_TransactionRefusedOnlyForWordOrInput :
    (∃ s' : State, drive .hamEnc (some ['1']) (bench 1 none 1) = .ok s') ∧
    fetch ⟨.hamEnc, [1], some ['1']⟩ = .ok .encode ∧
    fetch ⟨.hamEnc, [0], none⟩ = .error (.undecodable .tiedMode) ∧
    why (step (bench 0 none 1 [⟨.hamEnc, [1], some ['1']⟩])) = some (.invalidInput .invEmptyPayload) ∧
    why (step (bench 1 none 1 [⟨.hamEnc, [1], some ['x']⟩])) = some .nonBinary :=
  ⟨⟨_, rfl⟩, rfl, rfl, rfl, rfl⟩

/-- A transaction for each clause: no word, a tied mode of each module, and trailing bytes. -/
theorem witness_StepRefusesUndecodableWords :
    (bench 1 none 1 [⟨.hamSynd, [], none⟩]).pending = [⟨.hamSynd, [], none⟩] ∧
    (bench 1 none 1 [⟨.hamEnc, [0], none⟩]).pending = [⟨.hamEnc, [0], none⟩] ∧
    (bench 1 none 1 [⟨.hamDec, [1], none⟩]).pending = [⟨.hamDec, [1], none⟩] ∧
    (bench 1 none 1 [⟨.hamEnc, [1, 0], none⟩]).pending = [⟨.hamEnc, [1, 0], none⟩] ∧
    BitVec.getLsbD (0 : Byte) 0 = false ∧ BitVec.getLsbD (1 : Byte) 0 = true := by decide

theorem test_step_refuses_no_word :
    why (step (bench 4 none 1 [⟨.hamSynd, [], none⟩])) = some (.undecodable .noWord) := by decide
theorem test_step_refuses_trailing :
    why (step (bench 4 none 1 [⟨.hamEnc, [1, 0], none⟩])) = some (.undecodable .trailingBytes) := by decide

theorem not_validLength_two : ¬ ValidLength 2 := by
  rintro ⟨n, h1, h2⟩
  unfold codeLen at h2
  obtain rfl | rfl : n = 1 ∨ n = 2 := by omega
  · exact absurd h2 (by decide)
  · exact absurd h2 (by decide)

/-- A transaction for each clause, each with an input. -/
theorem witness_StepRefusesUnbuiltModule :
    (∃ s : State, s.pending = [⟨.hamEnc, [1], some ['1']⟩] ∧ s.params.n < 1) ∧
    (∃ s : State, s.pending = [⟨.hamDec, [0], some ['1']⟩] ∧ s.params.decLen = none ∧ s.params.n < 1) ∧
    (∃ s : State, s.pending = [⟨.hamDec, [0], some ['1']⟩] ∧ s.params.decLen = some 2 ∧ ¬ ValidLength 2) ∧
    (∃ s : State, s.pending = [⟨.hamSynd, [1], some ['1']⟩] ∧ s.params.le < 1) :=
  ⟨⟨bench 0 none 1 _, rfl, by decide⟩, ⟨bench 0 none 1 _, rfl, rfl, by decide⟩,
    ⟨bench 1 (some 2) 1 _, rfl, rfl, not_validLength_two⟩, ⟨bench 1 none 0 _, rfl, by decide⟩⟩

theorem witness_IdleStepAnswersFirstRefusal :
    (∃ s : State, s.pending = [] ∧ ¬ EncBuilt s.params) ∧
    (∃ s : State, s.pending = [] ∧ EncBuilt s.params ∧ ¬ DecBuilt s.params) ∧
    (∃ s : State, s.pending = [] ∧ EncBuilt s.params ∧ DecBuilt s.params ∧ ¬ SyndBuilt s.params) :=
  ⟨⟨bench 0 none 1, rfl, Nat.not_succ_le_zero 0⟩,
    ⟨bench 1 (some 2) 1, rfl, Nat.le_refl 1, not_validLength_two⟩,
    ⟨bench 1 none 0, rfl, Nat.le_refl 1, Nat.le_refl 1, Nat.not_succ_le_zero 0⟩⟩

/-- ParityCountIsLeast, each clause at its boundary. -/
theorem witness_ParityCountIsLeast : (∃ n : Nat, n < 1) ∧ ∃ n r : Nat, 1 ≤ n ∧ r + n + 1 ≤ 2 ^ r :=
  ⟨⟨0, by decide⟩, 1, 2, by decide, by decide⟩

theorem witness_ParityCountRanges :
    ∃ n r : Nat, 1 ≤ n ∧ 2 ≤ r ∧ 2 ^ (r - 1) - r + 1 ≤ n ∧ n ≤ 2 ^ r - r - 1 :=
  ⟨1, 2, by decide, by decide, by decide, by decide⟩

/-- The hypothesis `1 <= n` at its boundary: CodewordWidthBounds, ParityCountMonotone,
UncorrectableClassEmptyAtFullLength, CodewordsAreZeroSyndromeWords. -/
theorem witness_payload_width : ∃ n : Nat, 1 ≤ n := ⟨1, by decide⟩

theorem witness_ValidLengthsAreNonPowersOfTwo : ∃ n l, 1 ≤ n ∧ l = codeLen n := ⟨1, 3, by decide, by decide⟩

theorem witness_PowerOfTwoTest : ∃ p : Nat, 1 ≤ p := ⟨1, by decide⟩

theorem witness_PlacementEnumeratesDataPositions : ∃ p, 3 ≤ p ∧ isPow2 p = false := ⟨3, by decide, by decide⟩

theorem witness_PlaceConsumesPayloadInOrder : ∃ n p, 1 ≤ n ∧ 1 ≤ p ∧ p ≤ codeLen n :=
  ⟨1, 3, by decide, by decide, by decide⟩

theorem witness_BlockSequenceIsBlockSet : ∃ l j : Nat, 2 ^ j ≤ l := ⟨1, 0, by decide⟩

theorem witness_EngineVisitsIndicesBelowLength : ∃ l : Nat, 2 ≤ l := ⟨2, by decide⟩

/-- SyndCollectFoldsWithoutWriting, SyndWriteWritesBackInTurn, SyndWriteEqualsParallelForm: an engine with
indices to visit (3 bits). -/
theorem witness_SyndBuilt : ∃ s : State, SyndBuilt s.params ∧ 0 < indexCount s.params.le :=
  ⟨demo [], (demo_built _).2.2, by decide⟩

/-- The same statements' case of an engine of one bit. -/
theorem witness_SyndBuilt_one_bit : ∃ s : State, SyndBuilt s.params ∧ s.params.le = 1 :=
  ⟨bench 1 none 1, (built_of_least _).2.2, rfl⟩

theorem witness_WriteBackOrderUnobservable :
    [1, 0].Perm (List.range (indexCount 3)) := by decide

theorem witness_BalancedTreeComputesSyndromeBit : ∃ l j : Nat, 2 ^ j ≤ l := ⟨8, 3, by decide⟩

theorem witness_EncoderTreeComputesParityBit : ∃ n j, 1 ≤ n ∧ j < parityCount n := ⟨1, 1, by decide, by decide⟩

theorem witness_EngineLinear : ∃ l p : Nat, 1 ≤ p ∧ p ≤ l := ⟨1, 1, by decide, by decide⟩

/-- EncodeIsPlaceThenWrite, EncodeSynthesisesParity, EncodedWordHasZeroSyndrome: a payload that is not zero,
and N = 1. -/
theorem witness_EncBuilt : ∃ s : State, EncBuilt s.params ∧ s.params.n = 1 ∧ s.enc.d ≠ 0 :=
  ⟨demo [], (demo_built _).1, rfl, by decide⟩

theorem witness_EncodeIsPlaceThenWrite_zero : ∃ s : State, EncBuilt s.params ∧ s.enc.d = 0 :=
  ⟨bench 1 none 1, (built_of_least _).1, rfl⟩

theorem witness_EncodeIsPlaceThenWrite_refused : ∃ s : State, ¬ EncBuilt s.params :=
  ⟨bench 0 none 1, by unfold EncBuilt; decide⟩

theorem witness_ParityEquationsTable : ∃ s : State, 1 ≤ s.params.n ∧ s.params.n ≤ 26 :=
  ⟨enc 26 1, by decide, by decide⟩

theorem witness_EncodeInjectiveAndLinear : ∃ d e : BitVec 1, encodeWord d = encodeWord e := ⟨0, 0, rfl⟩

/-- DecodeOutputsFollowRules, DecodeStatusOutputs, DecodeFlipsSyndromePosition, DecodeForwardErrorPosition: a
decoder built from N. -/
theorem witness_DecBuilt : ∃ s : State, DecBuilt s.params ∧ s.dec.rx ≠ 0 :=
  ⟨demo [], (demo_built _).2.1, by decide⟩

/-- The same statements, for a decoder built from L. -/
theorem witness_DecBuilt_length : ∃ s : State, DecBuilt s.params ∧ s.params.decLen = some 15 :=
  ⟨bench 1 (some 15) 1, by unfold DecBuilt; exact validLength_fifteen, rfl⟩

/-- A syndrome in range, at L, and one beyond it (V-DEC-13, V-DEC-15). -/
theorem witness_DecodeForwardErrorPosition :
    (syndromeOf (n := 5) 0b010110010).toNat = codeLen 5 ∧
    codeLen 5 < (syndromeOf (n := 5) 0b100110110).toNat := by decide

theorem witness_DecodeStatusOutputs : (decodeWord (n := 5) 0b100110110).uncorr = true := by decide

theorem witness_CleanWordDecodesToItself :
    ∃ (s : State) (rx : BitVec (codeLen (decoderN s.params))),
      EncBuilt s.params ∧ DecBuilt s.params ∧ decoderN s.params = s.params.n ∧
      rx.toNat = (encodeWord s.enc.d).toNat :=
  ⟨demo [], (0b111 : BitVec (codeLen 1)), (demo_built _).1, (demo_built _).2.1, rfl, by decide⟩

/-- p = L, that is f = 1. -/
theorem witness_SingleErrorCorrected :
    ∃ (s : State) (rx : BitVec (codeLen (decoderN s.params))) (p f : Nat),
      EncBuilt s.params ∧ DecBuilt s.params ∧ decoderN s.params = s.params.n ∧
      1 ≤ p ∧ p ≤ codeLen s.params.n ∧ rx.toNat = (channelFlipPos (encodeWord s.enc.d) p).toNat ∧
      1 ≤ f ∧ f ≤ codeLen s.params.n ∧ rx.toNat = (channelFlip (encodeWord s.enc.d) f).toNat :=
  ⟨demo [], (0b011 : BitVec (codeLen 1)), 3, 1, (demo_built _).1, (demo_built _).2.1, rfl,
    by decide, by decide, by decide, by decide, by decide, by decide⟩

theorem witness_SyndromeOfErrorSet : 1 ≤ 4 ∧ ∀ p ∈ [1, 7], 1 ≤ p ∧ p ≤ codeLen 4 := by decide

/-- V-DEC-9 (miscorrected) and V-DEC-15 (reported). -/
theorem witness_DoubleErrorMiscorrectedOrReported :
    (decodeWord (channelFlipPos (channelFlipPos (encodeWord (n := 4) 0b1011) 1) 2)).syn.toNat ≤ codeLen 4 ∧
    codeLen 5 < (decodeWord (channelFlipPos (channelFlipPos (encodeWord (n := 5) 0b10110) 8) 3)).syn.toNat := by
  decide +kernel

theorem witness_TripleErrorUndetected :
    ∃ q : DecPorts 4, q = decodeWord ([1, 2, 3].foldl channelFlipPos (encodeWord (n := 4) 0b1011)) := ⟨_, rfl⟩

theorem witness_SmallestCodeIsMajorityVote :
    ∃ rx : BitVec (codeLen 1), rx.getLsbD 0 = false ∧ rx.getLsbD 1 = true ∧ rx.getLsbD 2 = true :=
  ⟨0b110, by decide, by decide, by decide⟩

theorem witness_DecoderBuiltFromLength :
    ∃ (s : State) (n : Nat), 1 ≤ n ∧ s.params.decLen = some (codeLen n) :=
  ⟨bench 1 (some 15) 1, 11, by decide, by decide⟩

theorem witness_RefusedParametersBuildNoBlock_payload :
    ∃ s : State, s.params.n < 1 ∧ s.params.decLen = none := ⟨bench 0 none 1, by decide, rfl⟩

theorem witness_RefusedParametersBuildNoBlock_length :
    ∃ (s : State) (l : Nat), s.params.decLen = some l ∧ ¬ ValidLength l :=
  ⟨bench 1 (some 2) 1, 2, rfl, not_validLength_two⟩

theorem witness_EngineWithoutArrayRefused : ∃ s : State, s.params.le < 1 := ⟨bench 1 none 0, by decide⟩

/-- Each operation completes somewhere, as OperationFrames and the idempotence clause suppose. -/
theorem witness_OperationFrames : ∀ i, ∃ t, exec i (demo []) = .next t := by
  intro i
  cases i <;> exact ⟨_, rfl⟩

theorem witness_EvaluationDeterministicAndIdempotent :
    ∃ (s : State) (e : EncPorts s.params.n) (q : DecPorts (decoderN s.params)) (y : SyndPorts s.params.le)
      (r : EncPorts s.params.n) (r' : DecPorts (decoderN s.params)) (r'' : SyndPorts s.params.le),
      e.d = s.enc.d ∧ q.rx = s.dec.rx ∧ y.a = s.synd.a ∧
      exec .encode s = .next { s with enc := r } ∧ exec .decode s = .next { s with dec := r' } ∧
      exec .syndWrite s = .next { s with synd := r'' } :=
  ⟨demo [], (demo []).enc, (demo []).dec, (demo []).synd, _, _, _, rfl, rfl, rfl, rfl, rfl, rfl⟩

theorem witness_EncodeAndDecodeCommute : ∃ s : State, EncBuilt s.params ∧ DecBuilt s.params :=
  ⟨demo [], (demo_built _).1, (demo_built _).2.1⟩

theorem witness_IdleStepSettlesOutputs : ∃ s : State, AllBuilt s.params ∧ s.pending = [] :=
  ⟨synd 3 0b101, ⟨Nat.le_refl 1, Nat.le_refl 1, (by decide : 1 ≤ 3)⟩, rfl⟩

theorem witness_SettledMachineStaysPut :
    ∃ s : State, AllBuilt s.params ∧ s.pending = [] ∧ Settled s :=
  ⟨demo [], demo_built _, rfl, demo_settled _⟩

/-- A settled machine about to make a transaction that drives a new word. -/
theorem witness_EveryStepKeepsOutputsSettled :
    ∃ s t : State, Settled s ∧ step s = .next t ∧ s.pending ≠ [] :=
  ⟨demo [⟨.hamDec, [0], some ['0', '0', '1']⟩], _, demo_settled _, rfl, by decide⟩

theorem witness_ParametersNeverChange : ∃ s t : State, step s = .next t := ⟨demo [], _, rfl⟩

end Sys2Proof.Tests
end

section
/-! PROOFS. 00_scope.md R11: the model's test `isPow2` and its two readings. -/

namespace Sys2Proof.Machine

/-- 00_scope.md R11, second form: the model's test, both of whose conditions are needed, since
`0 &&& (0 - 1) = 0` as well. -/
theorem isPow2_iff_and_sub_one (p : Nat) : isPow2 p = true ↔ 1 ≤ p ∧ p &&& (p - 1) = 0 := by
  simp only [isPow2, Bool.and_eq_true, decide_eq_true_eq]

/-- 00_scope.md R11, first form. No bound on p is needed: 0 fails the test and is no power of two. -/
theorem isPow2_iff_exists_two_pow (p : Nat) : isPow2 p = true ↔ ∃ j, p = 2 ^ j :=
  calc isPow2 p = true
    _ ↔ 1 ≤ p ∧ p &&& (p - 1) = 0 := isPow2_iff_and_sub_one p
    _ ↔ p ≠ 0 ∧ p &&& (p - 1) = 0 := and_congr_left' Nat.one_le_iff_ne_zero
    _ ↔ ∃ j, p = 2 ^ j := Nat.ne_zero_and_sub_one_eq_zero_iff_isPowerOfTwo

/-- Settles O14, by the two readings of the test; `1 ≤ p` discharges its first condition. -/
theorem powerOfTwoTest : Obligations.PowerOfTwoTest := by
  intro p hp
  constructor
  · exact isPow2_iff_exists_two_pow p
  · exact (isPow2_iff_and_sub_one p).trans (and_iff_right hp)

end Sys2Proof.Machine
end

section
/-! PROOFS. 20_memory.md R48: what an operation answers is a function of its module's input word, and that word
is not among what it changes. -/

namespace Sys2Proof.Machine

/-- An evaluation leaves the input word it reads, so a second one finds the same word. -/
@[simp] theorem evalOf_evalOf (i : Instr) (s : State) : evalOf i (evalOf i s) = evalOf i s := by
  cases i <;> rfl

/-- An operation that completes leaves its module built and its input in place: it answers the same again. -/
theorem exec_idempotent {i : Instr} {s t : State} (h : exec i s = .next t) : exec i t = .next t := by
  obtain ⟨hbuilt, rfl⟩ := exec_eq_next.1 h
  exact exec_eq_next.2 ⟨by rwa [evalOf_params], (evalOf_evalOf i s).symm⟩

/-- The ports ENCODE gives HAM_ENC depend on N and `d` alone. -/
theorem exec_encode_eq_next_enc {s : State} {r : EncPorts s.params.n} :
    exec .encode s = .next { s with enc := r } ↔
      buildRefusal s.params .hamEnc = none ∧ r = settledEnc s.enc.d := by
  rw [exec_eq_next]
  simp [evalOf, evalEnc, Instr.unit]

/-- The ports DECODE gives HAM_DEC depend on the decoder's length and `rx` alone. -/
theorem exec_decode_eq_next_dec {s : State} {r : DecPorts (decoderN s.params)} :
    exec .decode s = .next { s with dec := r } ↔
      buildRefusal s.params .hamDec = none ∧ r = decodeWord s.dec.rx := by
  rw [exec_eq_next]
  simp [evalOf, evalDec, Instr.unit]

/-- The ports a SYND operation gives HAM_SYND depend on L_e, `a` and the operation's mode alone. -/
theorem exec_eq_next_synd {i : Instr} {mode : Bit} (hunit : i.unit = .hamSynd)
    (heval : evalOf i = evalSynd mode) {s : State} {r : SyndPorts s.params.le} :
    exec i s = .next { s with synd := r } ↔
      buildRefusal s.params .hamSynd = none ∧ r = settledSynd s.synd.a mode := by
  rw [exec_eq_next, hunit, heval]
  simp [evalSynd]

/-- A SYND operation has the engine's unit and is its evaluation in one of the two modes. -/
theorem evalOf_eq_evalSynd {i : Instr} (h : i = .syndCollect ∨ i = .syndWrite) :
    i.unit = .hamSynd ∧ ∃ mode, evalOf i = evalSynd mode := by
  obtain rfl | rfl := h
  · exact ⟨rfl, modeCollect, rfl⟩
  · exact ⟨rfl, modeWrite, rfl⟩

/-- Settles O49: the characterisations above mention only the parameters and the input word, which the two
states of each clause share. -/
theorem evaluationDeterministicAndIdempotent : Obligations.EvaluationDeterministicAndIdempotent := by
  refine ⟨fun i s t => exec_idempotent, fun s e q y ts => ⟨?encode, ?decode, ?synd⟩⟩
  case encode =>
    intro r hd h
    obtain ⟨hbuilt, hr⟩ := exec_encode_eq_next_enc.1 h
    exact exec_encode_eq_next_enc.2 ⟨hbuilt, hd ▸ hr⟩
  case decode =>
    intro r hrx h
    obtain ⟨hbuilt, hr⟩ := exec_decode_eq_next_dec.1 h
    exact exec_decode_eq_next_dec.2 ⟨hbuilt, hrx ▸ hr⟩
  case synd =>
    intro i r hi ha h
    obtain ⟨hunit, mode, heval⟩ := evalOf_eq_evalSynd hi
    obtain ⟨hbuilt, hr⟩ := (exec_eq_next_synd hunit heval).1 h
    exact (exec_eq_next_synd hunit heval).2 ⟨hbuilt, ha ▸ hr⟩

end Sys2Proof.Machine
end

section
/-! PROOFS. 40_parity_count.md R70, R71: the search finds, within its bound, the least r that passes the test. -/

namespace Sys2Proof.Machine

/-- The parity-bit counts that pass the test of 40_parity_count.md R70 for a payload of width n. -/
def sufficientParityCounts (n : Nat) : Set Nat :=
  {r | r + n + 1 ≤ 2 ^ r}

@[simp] theorem mem_sufficientParityCounts {n r : Nat} :
    r ∈ sufficientParityCounts n ↔ r + n + 1 ≤ 2 ^ r := Iff.rfl

/-- 40_parity_count.md R71: the last candidate of the search passes the test. -/
theorem searchBound_mem_sufficientParityCounts (n : Nat) : n + 1 ∈ sufficientParityCounts n := by
  have hn : n < 2 ^ n := Nat.lt_two_pow_self
  rw [mem_sufficientParityCounts, Nat.pow_succ]
  omega

/-- What the search answers is the least count that passes: it tries the candidates in increasing order. -/
theorem isLeast_of_paritySearch_eq_some {n r : Nat} (h : paritySearch n = some r) :
    IsLeast (sufficientParityCounts n) r := by
  obtain ⟨hpass, -, hfail⟩ := List.find?_range_eq_some.1 h
  constructor
  · exact mem_sufficientParityCounts.2 (of_decide_eq_true hpass)
  · intro k hk
    by_contra hlt
    have hk_fails := hfail k (Nat.lt_of_not_le hlt)
    simp [mem_sufficientParityCounts.1 hk] at hk_fails

/-- 40_parity_count.md R71: the search always returns. -/
theorem paritySearch_ne_none (n : Nat) : paritySearch n ≠ none := by
  intro h
  have hfails := List.find?_range_eq_none.1 h (n + 1) (Nat.lt_succ_self _)
  simp [mem_sufficientParityCounts.1 (searchBound_mem_sufficientParityCounts n)] at hfails

theorem parityCountOrRefuse_of_lt_one {n : Nat} (h : n < 1) :
    parityCountOrRefuse n = .error .invEmptyPayload := if_pos h

theorem paritySearch_eq_some_parityCount {n : Nat} (h : 1 ≤ n) : paritySearch n = some (parityCount n) := by
  obtain ⟨r, hr⟩ := Option.ne_none_iff_exists'.1 (paritySearch_ne_none n)
  have hcount : parityCount n = r := by
    simp [parityCount, parityCountOrRefuse, hr, Nat.not_lt.2 h]
  rw [hr, hcount]

theorem parityCountOrRefuse_eq_ok {n : Nat} (h : 1 ≤ n) :
    parityCountOrRefuse n = .ok (parityCount n) := by
  simp [parityCountOrRefuse, paritySearch_eq_some_parityCount h, Nat.not_lt.2 h]

/-- 40_parity_count.md R70, the rule itself. -/
theorem parityCount_isLeast {n : Nat} (h : 1 ≤ n) : IsLeast (sufficientParityCounts n) (parityCount n) :=
  isLeast_of_paritySearch_eq_some (paritySearch_eq_some_parityCount h)

/-- Settles O9, by what the search answers; the corner cases are runs of the model. -/
theorem parityCountIsLeast : Obligations.ParityCountIsLeast := by
  refine ⟨fun n => parityCountOrRefuse_of_lt_one, fun n h => ?least, by decide⟩
  obtain ⟨hpass, hmin⟩ := parityCount_isLeast h
  exact ⟨parityCountOrRefuse_eq_ok h, hpass, fun r hr => hmin hr⟩

end Sys2Proof.Machine
end

section
/-! PROOFS. 41_syndrome_engine.md R81: the parity indices the engine visits. -/

namespace Sys2Proof.Machine

theorem countP_range_lt (n c : Nat) : (List.range n).countP (fun j => decide (j < c)) = min n c := by
  induction n with
  | zero => simp
  | succ n ih =>
    rw [List.range_succ, List.countP_append, ih, List.countP_singleton]
    by_cases h : n < c
    · rw [if_pos (decide_eq_true h)]
      omega
    · rw [if_neg (by simpa using h)]
      omega

/-- The indices `j` with `2^j < l` are the first `ceil(log2 l)`; there is none for `l = 0` or `l = 1`. -/
theorem indexCount_eq_clog (l : Nat) : indexCount l = Nat.clog 2 l := by
  have hbound : Nat.clog 2 l ≤ l := Nat.clog_le_of_le_pow (Nat.le_of_lt Nat.lt_two_pow_self)
  calc indexCount l
    _ = (List.range l).countP fun j => decide (j < Nat.clog 2 l) := by
      simp only [indexCount, Nat.lt_clog_iff_pow_lt Nat.one_lt_two]
    _ = Nat.clog 2 l := by rw [countP_range_lt, Nat.min_eq_right hbound]

/-- 41_syndrome_engine.md R81: index `j` is visited while `2^j < l`. -/
theorem lt_indexCount {l j : Nat} : j < indexCount l ↔ 2 ^ j < l := by
  rw [indexCount_eq_clog, Nat.lt_clog_iff_pow_lt Nat.one_lt_two]

/-- 41_syndrome_engine.md R81: an array of one bit has no index to visit. -/
@[simp] theorem indexCount_one : indexCount 1 = 0 := by decide

end Sys2Proof.Machine
end

section
/-! PROOFS. 41_syndrome_engine.md R86: the block sequence lists the positions of the block set, and the fold is
the XOR over them. -/

namespace Sys2Proof.Machine

/-! ### Filtering an interval of positions -/

/-- A first part of the interval that the test rejects can be left out. -/
theorem filter_Ico_of_forall_false {q : Nat → Bool} {a b : Nat} (hab : a ≤ b)
    (h : ∀ p, a ≤ p → p < b → q p = false) (e : Nat) :
    (List.Ico a e).filter q = (List.Ico b e).filter q := by
  obtain hbe | heb := Nat.le_total b e
  · have hnil : (List.Ico a b).filter q = [] := by
      simpa [List.filter_eq_nil_iff, List.Ico.mem] using h
    rw [← List.Ico.append_consecutive hab hbe, List.filter_append, hnil, List.nil_append]
  · rw [List.Ico.eq_nil_of_le heb, List.filter_nil, List.filter_eq_nil_iff]
    intro p hp
    obtain ⟨hap, hpe⟩ := List.Ico.mem.1 hp
    simp [h p hap (by omega)]

/-- A first part of the interval that the test accepts is kept whole, as far as the interval goes. -/
theorem filter_Ico_of_forall_true {q : Nat → Bool} {a b : Nat} (hab : a ≤ b)
    (h : ∀ p, a ≤ p → p < b → q p = true) (e : Nat) :
    (List.Ico a e).filter q = List.Ico a (min b e) ++ (List.Ico b e).filter q := by
  obtain hbe | heb := Nat.le_total b e
  · have hall : (List.Ico a b).filter q = List.Ico a b := by
      simpa [List.filter_eq_self, List.Ico.mem] using h
    rw [← List.Ico.append_consecutive hab hbe, List.filter_append, hall, Nat.min_eq_left hbe]
  · rw [List.Ico.eq_nil_of_le heb, List.filter_nil, List.append_nil, Nat.min_eq_right heb,
      List.filter_eq_self]
    intro p hp
    obtain ⟨hap, hpe⟩ := List.Ico.mem.1 hp
    exact h p hap (by omega)

/-! ### The loop of BLOCKSEQ -/

/-- Bit `j` is constant on each run of `2^j` positions, and set on every second run. -/
theorem posBit_of_mem_run {j m p : Nat} (hlow : 2 ^ j * m ≤ p) (hhigh : p < 2 ^ j * m + 2 ^ j) :
    posBit p j = decide (m % 2 = 1) := by
  have hdiv : p / 2 ^ j = m := Nat.div_eq_of_lt_le (by rwa [Nat.mul_comm]) (by rwa [Nat.mul_comm, Nat.mul_succ])
  rw [posBit, hdiv]

theorem slice_eq_map_positions {l : Nat} (arr : BitVec l) (s e : Nat) :
    slice arr s e = (List.Ico (s + 1) (min (e + 1) (l + 1))).map fun p => arr.getLsbD (p - 1) := by
  have hshift : (List.Ico s (min e l)).map (1 + ·) = List.Ico (s + 1) (min (e + 1) (l + 1)) := by
    rw [List.Ico.map_add, Nat.add_min_add_right]
  rw [← hshift, List.map_map]
  simp [slice, List.Ico, Function.comp_def]

/-- From the start of a block on, that is from an odd multiple of `2^j`, the loop lists the positions whose
bit `j` is set: its block is a run of such positions, and it skips a run without any. -/
theorem blocksFrom_eq {l : Nat} (arr : BitVec l) (j : Nat) {turns index m : Nat}
    (hturns : l ≤ index + turns) (hstart : index + 1 = 2 ^ j * (2 * m + 1)) :
    blocksFrom arr j turns index =
      ((List.Ico (index + 1) (l + 1)).filter fun p => posBit p j).map fun p => arr.getLsbD (p - 1) := by
  induction turns generalizing index m with
  | zero => rw [List.Ico.eq_nil_of_le (by omega)]; rfl
  | succ turns ih =>
    rw [blocksFrom]
    split
    case isFalse hend => rw [List.Ico.eq_nil_of_le (by omega)]; rfl
    case isTrue =>
      have hpow : 2 ^ (j + 1) = 2 ^ j + 2 ^ j := by rw [Nat.pow_succ, Nat.mul_two]
      have hgap : index + 2 ^ j + 1 = 2 ^ j * (2 * m + 2) := by linarith
      have hnext : index + 2 ^ (j + 1) + 1 = 2 ^ j * (2 * (m + 1) + 1) := by linarith
      have hblock_set : ∀ p, index + 1 ≤ p → p < index + 2 ^ j + 1 → posBit p j = true := by
        intro p hlow hhigh
        rw [posBit_of_mem_run (m := 2 * m + 1) (by omega) (by omega)]
        exact decide_eq_true (by omega)
      have hgap_clear : ∀ p, index + 2 ^ j + 1 ≤ p → p < index + 2 ^ (j + 1) + 1 → posBit p j = false := by
        intro p hlow hhigh
        rw [posBit_of_mem_run (m := 2 * m + 2) (by omega) (by omega)]
        exact decide_eq_false (by omega)
      have hpos : 0 < 2 ^ (j + 1) := Nat.two_pow_pos _
      rw [filter_Ico_of_forall_true (by omega) hblock_set,
        filter_Ico_of_forall_false (by omega) hgap_clear, List.map_append, slice_eq_map_positions,
        ih (by omega) hnext]

/-- No position below `2^j` has bit `j`. -/
theorem blk_eq_filter_Ico (l j : Nat) :
    blk l j = (List.Ico (2 ^ j) (l + 1)).filter fun p => posBit p j := by
  have hpos : 1 ≤ 2 ^ j := Nat.one_le_two_pow
  have hclear : ∀ p, 1 ≤ p → p < 2 ^ j → posBit p j = false := by
    intro p _ hp
    exact posBit_of_mem_run (m := 0) (Nat.zero_le _) (by simpa using hp)
  exact filter_Ico_of_forall_false hpos hclear (l + 1)

/-- 41_syndrome_engine.md R86: the positions of the block sequence, in order, are those of the block set. -/
theorem blockSeq_eq_map_blk {l : Nat} (arr : BitVec l) (j : Nat) :
    blockSeq arr j = (blk l j).map fun p => arr.getLsbD (p - 1) := by
  have hstart : 2 ^ j - 1 + 1 = 2 ^ j := Nat.sub_add_cancel Nat.one_le_two_pow
  rw [blockSeq, blocksFrom_eq arr j (m := 0) (by omega) (by simpa using hstart), hstart, blk_eq_filter_Ico]

/-- 41_syndrome_engine.md R86: the first position of a block set is its parity position. -/
theorem blk_eq_cons {l j : Nat} (h : 2 ^ j ≤ l) :
    blk l j = 2 ^ j :: (List.Ico (2 ^ j + 1) (l + 1)).filter fun p => posBit p j := by
  have hbit : posBit (2 ^ j) j = true := by rw [posBit_eq_testBit, Nat.testBit_two_pow_self]
  rw [blk_eq_filter_Ico, List.Ico.eq_cons (by omega), List.filter_cons_of_pos (p := (posBit · j)) hbit]

theorem blk_eq_nil {l j : Nat} (h : l < 2 ^ j) : blk l j = [] := by
  rw [blk_eq_filter_Ico, List.Ico.eq_nil_of_le (by omega), List.filter_nil]

/-! ### The fold -/

theorem foldl_xor_map (f : Nat → Bit) (b : Bit) (ps : List Nat) :
    (ps.map f).foldl (· ^^ ·) b = (b ^^ xorOver f ps) := by
  induction ps generalizing b with
  | nil => simp
  | cons p ps ih => simp [ih]

/-- 41_syndrome_engine.md R86: the fold is the XOR over the block set, the parity position counted once. -/
theorem foldIndex_eq_blkParity {l : Nat} (arr : BitVec l) (j : Nat) :
    foldIndex arr j = blkParity arr j := by
  rw [foldIndex, blkParity, blockSeq_eq_map_blk]
  obtain h | h := Nat.lt_or_ge l (2 ^ j)
  · have hbeyond : arr.getLsbD (2 ^ j - 1) = false := BitVec.getLsbD_of_ge _ _ (by omega)
    simp [blk_eq_nil h, hbeyond]
  · rw [blk_eq_cons h, List.map_cons, List.tail_cons, foldl_xor_map, xorOver_cons]

end Sys2Proof.Machine
end

section
/-! PROOFS. The effect of a flipped position on the XOR over a block set (41_syndrome_engine.md R87, R90). -/

namespace Sys2Proof.Machine

theorem nodup_blk (l j : Nat) : (blk l j).Nodup :=
  List.Nodup.filter _ List.nodup_range'

/-- An XOR over distinct positions that reads 1 at `p` alone tells whether `p` is among them. -/
theorem xorOver_decide_eq {ps : List Nat} (hps : ps.Nodup) (p : Nat) :
    xorOver (fun q => decide (q = p)) ps = decide (p ∈ ps) := by
  induction ps with
  | nil => simp
  | cons q qs ih =>
    obtain ⟨hq, hqs⟩ := List.nodup_cons.1 hps
    rw [xorOver_cons, ih hqs]
    by_cases hqp : q = p
    · subst hqp
      simp [hq]
    · simp [hqp, Ne.symm hqp]

theorem blkParity_xor {l : Nat} (a b : BitVec l) (j : Nat) :
    blkParity (a ^^^ b) j = (blkParity a j ^^ blkParity b j) := by
  simp only [blkParity, BitVec.getLsbD_xor, xorOver_xor]

theorem blkParity_flipMask {l p : Nat} (hp : 1 ≤ p ∧ p ≤ l) (j : Nat) :
    blkParity (flipMask l p) j = posBit p j := by
  have hmask : ∀ q ∈ blk l j, (flipMask l p).getLsbD (q - 1) = decide (q = p) := by
    intro q hq
    obtain ⟨⟨hq1, -⟩, -⟩ := mem_blk.1 hq
    rw [getLsbD_flipMask, decide_eq_decide]
    omega
  rw [blkParity, xorOver_congr hmask, xorOver_decide_eq (nodup_blk l j)]
  simp [mem_blk, hp]

/-- A flipped position changes the XOR over the block sets it is in, and no other. -/
theorem blkParity_channelFlipPos {l p : Nat} (a : BitVec l) (hp : 1 ≤ p ∧ p ≤ l) (j : Nat) :
    blkParity (channelFlipPos a p) j = (blkParity a j ^^ posBit p j) := by
  rw [channelFlipPos, blkParity_xor, blkParity_flipMask hp]

end Sys2Proof.Machine
end

section
/-! PROOFS. 41_syndrome_engine.md R85: SYND.COLLECT. -/

namespace Sys2Proof.Machine

theorem exec_syndCollect {s : State} (h : Safety.SyndBuilt s.params) :
    exec .syndCollect s = .next { s with synd :=
      { a := s.synd.a, mode := false, s := (syndCollect s.synd.a).s, w := s.synd.a } } :=
  (exec_eq_next_synd rfl rfl).2 ⟨if_pos h, rfl⟩

theorem getLsbD_syndCollect_s_of_lt {l j : Nat} (a : BitVec l) (hj : j < indexCount l) :
    (syndCollect a).s.getLsbD j = foldIndex a j := by
  rw [getLsbD_syndCollect_s, decide_eq_true hj, Bool.true_and]

/-- 41_syndrome_engine.md R85, corner case: a parity position is in its own block set alone. -/
theorem syndCollect_s_channelFlipPos_two_pow {l i : Nat} (a : BitVec l) (hi : i < indexCount l) :
    (syndCollect (channelFlipPos a (2 ^ i))).s = (syndCollect a).s ^^^ BitVec.twoPow _ i := by
  have hpos : 1 ≤ 2 ^ i ∧ 2 ^ i ≤ l := ⟨Nat.one_le_two_pow, (lt_indexCount.1 hi).le⟩
  apply BitVec.eq_of_getLsbD_eq
  intro j hj
  rw [BitVec.getLsbD_xor, getLsbD_syndCollect_s_of_lt _ hj, getLsbD_syndCollect_s_of_lt _ hj,
    foldIndex_eq_blkParity, foldIndex_eq_blkParity, blkParity_channelFlipPos a hpos,
    posBit_eq_testBit, Nat.testBit_two_pow, BitVec.getLsbD_twoPow, decide_eq_true hi, Bool.true_and]

/-- Settles O19: the outputs are read off the evaluation, the fold being the XOR over the block set; the
flipped parity bit is the lemma above. -/
theorem syndCollectFoldsWithoutWriting : Obligations.SyndCollectFoldsWithoutWriting := by
  intro s hbuilt
  refine ⟨(syndCollect s.synd.a).s, exec_syndCollect hbuilt, ?bits, ?flipped, ?oneBit⟩
  case bits =>
    intro j hj
    have hfold := getLsbD_syndCollect_s_of_lt s.synd.a hj
    exact ⟨hfold, hfold.trans (foldIndex_eq_blkParity _ _)⟩
  case flipped =>
    rintro i hi b rfl
    rw [← syndCollect_s_channelFlipPos_two_pow _ hi]
    exact exec_syndCollect (s := { s with synd := { s.synd with a := channelFlipPos s.synd.a (2 ^ i) } }) hbuilt
  case oneBit =>
    intro hle
    rw [hle, indexCount_one]

end Sys2Proof.Machine
end

section
/-! PROOFS. 41_syndrome_engine.md R84: SYND.WRITE, turn by turn. -/

namespace Sys2Proof.Machine

theorem exec_syndWrite {s : State} (h : Safety.SyndBuilt s.params) :
    exec .syndWrite s = .next { s with synd :=
      { a := s.synd.a, mode := true, s := (syndWrite s.synd.a).s, w := (syndWrite s.synd.a).w } } :=
  (exec_eq_next_synd rfl rfl).2 ⟨if_pos h, rfl⟩

section Turns

variable {l : Nat} (a : BitVec l)

/-- The working array of SYND.WRITE after its first `j` turns. -/
def arrayAfter (j : Nat) : BitVec l :=
  (syndWriteIn (List.range j) a).w

@[simp] theorem arrayAfter_zero : arrayAfter a 0 = a := rfl

theorem syndWrite_w : (syndWrite a).w = arrayAfter a (indexCount l) := rfl

/-- Turn `j` of the loop is made on the outcome of the turns before it. -/
theorem syndWriteIn_range_succ (j : Nat) :
    syndWriteIn (List.range (j + 1)) a = writeBack (syndWriteIn (List.range j) a) j := by
  rw [syndWriteIn, List.range_succ, List.foldl_append]
  rfl

/-- Turn `j` writes its fold at the parity position `2^j` and changes nothing else of the array. -/
theorem getLsbD_arrayAfter_succ (j : Nat) {k : Nat} (hk : k < l) :
    (arrayAfter a (j + 1)).getLsbD k =
      if k = 2 ^ j - 1 then foldIndex (arrayAfter a j) j else (arrayAfter a j).getLsbD k := by
  rw [arrayAfter, syndWriteIn_range_succ, writeBack_w, getLsbD_setBit]
  congr 1
  rw [eq_iff_iff]
  omega

/-- Turn `j` puts out its fold as `s[j]`, and no later turn touches it. -/
theorem getLsbD_syndWriteIn_range_s {turns j : Nat} (hturns : j < turns) (hj : j < indexCount l) :
    (syndWriteIn (List.range turns) a).s.getLsbD j = foldIndex (arrayAfter a j) j := by
  induction turns with
  | zero => exact absurd hturns (Nat.not_lt_zero j)
  | succ k ih =>
    rw [syndWriteIn_range_succ, writeBack_s, getLsbD_setBit]
    obtain rfl | hjk := Nat.eq_or_lt_of_le (Nat.le_of_lt_succ hturns)
    · rw [if_pos ⟨rfl, hj⟩, arrayAfter]
    · rw [if_neg (by omega), ih hjk]

end Turns

/-- Settles O20: the arrays are those after each turn of the loop, the last one its `w`. -/
theorem syndWriteWritesBackInTurn : Obligations.SyndWriteWritesBackInTurn := by
  intro s hbuilt
  refine ⟨arrayAfter s.synd.a, (syndWrite s.synd.a).s, arrayAfter_zero _, ?turns, ?exec, ?oneBit⟩
  case turns =>
    intro j hj
    exact ⟨getLsbD_syndWriteIn_range_s _ hj hj, fun k hk => getLsbD_arrayAfter_succ _ j hk⟩
  case exec =>
    rw [← syndWrite_w]
    exact exec_syndWrite hbuilt
  case oneBit =>
    intro hle
    have hnone : indexCount s.params.le = 0 := by rw [hle, indexCount_one]
    rw [hnone, arrayAfter_zero]

end Sys2Proof.Machine
end

section
/-! PROOFS. 40_parity_count.md R73, 30_encoding.md R58: the codeword width lies between consecutive powers of
two, so it determines the payload width. -/

namespace Sys2Proof.Machine

/-- No count of 0 passes the test of 40_parity_count.md R70. -/
theorem one_le_parityCount {n : Nat} (h : 1 ≤ n) : 1 ≤ parityCount n := by
  obtain ⟨hpass, -⟩ := parityCount_isLeast h
  rw [mem_sufficientParityCounts] at hpass
  by_contra hzero
  rw [Nat.lt_one_iff.1 (Nat.not_le.1 hzero)] at hpass
  omega

/-- 40_parity_count.md R73, upper bound: the count passes the test. -/
theorem codeLen_lt_two_pow {n : Nat} (h : 1 ≤ n) : codeLen n < 2 ^ parityCount n := by
  obtain ⟨hpass, -⟩ := parityCount_isLeast h
  rw [mem_sufficientParityCounts] at hpass
  rw [codeLen]
  omega

/-- 40_parity_count.md R73, lower bound: the count before it fails the test. -/
theorem two_pow_lt_codeLen {n : Nat} (h : 1 ≤ n) : 2 ^ (parityCount n - 1) < codeLen n := by
  obtain ⟨-, hmin⟩ := parityCount_isLeast h
  have hone := one_le_parityCount h
  have hfail : parityCount n - 1 ∉ sufficientParityCounts n := fun hpass => by
    have := hmin hpass
    omega
  rw [mem_sufficientParityCounts] at hfail
  rw [codeLen]
  omega

/-- 40_parity_count.md R73: the count is one more than the logarithm of the codeword width. -/
theorem log2_codeLen {n : Nat} (h : 1 ≤ n) : Nat.log2 (codeLen n) = parityCount n - 1 := by
  have hlow := two_pow_lt_codeLen h
  have hhigh := codeLen_lt_two_pow h
  rw [Nat.log2_eq_iff (Nat.ne_zero_of_lt hlow), Nat.sub_add_cancel (one_le_parityCount h)]
  exact ⟨hlow.le, hhigh⟩

/-- 30_encoding.md R58: the payload width is read back from the codeword width. -/
theorem payloadOfLength_codeLen {n : Nat} (h : 1 ≤ n) : payloadOfLength (codeLen n) = n := by
  rw [payloadOfLength, log2_codeLen h, Nat.sub_add_cancel (one_le_parityCount h), codeLen, Nat.add_sub_cancel]

/-- 40_parity_count.md R74: the engine of a codeword visits every parity bit. -/
theorem lt_indexCount_codeLen {n j : Nat} (h : 1 ≤ n) (hj : j < parityCount n) : j < indexCount (codeLen n) :=
  lt_indexCount.2 <|
    calc 2 ^ j
      _ ≤ 2 ^ (parityCount n - 1) := Nat.pow_le_pow_right Nat.two_pos (Nat.le_sub_one_of_lt hj)
      _ < codeLen n := two_pow_lt_codeLen h

end Sys2Proof.Machine
end

section
/-! PROOFS. 42_encoder.md R101: DIDX numbers the data positions in order, and PLACE puts the payload there. -/

namespace Sys2Proof.Machine

/-- The data positions of an l-bit word (30_encoding.md R50), in increasing order. -/
def dataPositions (l : Nat) : List Nat :=
  (positions l).filter fun p => !isPow2 p

theorem mem_dataPositions {l p : Nat} : p ∈ dataPositions l ↔ (1 ≤ p ∧ p ≤ l) ∧ isPow2 p = false := by
  rw [dataPositions, List.mem_filter, mem_positions, Bool.not_eq_true']

theorem positions_succ (l : Nat) : positions (l + 1) = positions l ++ [l + 1] := by
  rw [positions, List.range'_1_concat, Nat.add_comm 1 l]
  rfl

theorem dataPositions_succ_of_isPow2 {l : Nat} (h : isPow2 (l + 1) = true) :
    dataPositions (l + 1) = dataPositions l := by
  simp [dataPositions, positions_succ, h]

theorem dataPositions_succ_of_not_isPow2 {l : Nat} (h : isPow2 (l + 1) = false) :
    dataPositions (l + 1) = dataPositions l ++ [l + 1] := by
  simp [dataPositions, positions_succ, h]

/-- The logarithm steps up at a power of two. -/
theorem log2_succ_of_isPow2 {l : Nat} (hl : l ≠ 0) (h : isPow2 (l + 1) = true) :
    Nat.log2 (l + 1) = Nat.log2 l + 1 := by
  obtain ⟨j, hj⟩ := (isPow2_iff_exists_two_pow _).1 h
  obtain _ | j := j
  · omega
  · have hlog : Nat.log2 l = j := (Nat.log2_eq_iff hl).2 (by omega)
    rw [hj, Nat.log2_two_pow, hlog]

/-- The logarithm stays between powers of two. -/
theorem log2_succ_of_not_isPow2 {l : Nat} (hl : l ≠ 0) (h : isPow2 (l + 1) = false) :
    Nat.log2 (l + 1) = Nat.log2 l := by
  have hne : l + 1 ≠ 2 ^ (Nat.log2 l + 1) := fun heq => by
    simp [(isPow2_iff_exists_two_pow _).2 ⟨_, heq⟩] at h
  obtain ⟨hlow, hhigh⟩ := (Nat.log2_eq_iff hl).1 rfl
  exact (Nat.log2_eq_iff (Nat.succ_ne_zero l)).2 (by omega)

/-- 30_encoding.md R52: DIDX numbers the data positions `0, 1, 2, ...` in increasing order. Each position either
is a power of two, where `l - floor(log2 l) - 1` stays, or is the next data position, where it grows by one. -/
theorem map_didx_dataPositions (l : Nat) : (dataPositions l).map didx = List.range (payloadOfLength l) := by
  induction l with
  | zero => rfl
  | succ l ih =>
    obtain rfl | hl := eq_or_ne l 0
    · rfl
    cases hpow : isPow2 (l + 1) with
    | true =>
      have hsame : payloadOfLength (l + 1) = payloadOfLength l := by
        rw [payloadOfLength, payloadOfLength, log2_succ_of_isPow2 hl hpow]
        omega
      rw [dataPositions_succ_of_isPow2 hpow, ih, hsame]
    | false =>
      have hlog : Nat.log2 l < l := (Nat.log2_lt hl).2 Nat.lt_two_pow_self
      have hnext : didx (l + 1) = payloadOfLength l := by
        rw [didx, payloadOfLength, log2_succ_of_not_isPow2 hl hpow]
        omega
      have hgrow : payloadOfLength (l + 1) = payloadOfLength l + 1 := by
        rw [payloadOfLength, payloadOfLength, log2_succ_of_not_isPow2 hl hpow]
        omega
      rw [dataPositions_succ_of_not_isPow2 hpow, List.map_append, ih, hgrow, List.range_succ, List.map_singleton,
        hnext]

/-- 42_encoder.md R101, position by position. -/
theorem getLsbD_place_position {n p : Nat} (d : BitVec n) (hp : 1 ≤ p ∧ p ≤ codeLen n) :
    (place d).getLsbD (p - 1) = if isPow2 p then false else d.getLsbD (didx p) := by
  rw [getLsbD_place, if_pos (by omega), Nat.sub_add_cancel hp.1]

/-- 42_encoder.md R101: the placed bits of the data positions are the payload, in order. -/
theorem map_place_dataPositions {n : Nat} (d : BitVec n) (hn : 1 ≤ n) :
    (dataPositions (codeLen n)).map (fun p => (place d).getLsbD (p - 1)) = (List.range n).map d.getLsbD := by
  have hbit : ∀ p ∈ dataPositions (codeLen n), (place d).getLsbD (p - 1) = d.getLsbD (didx p) := by
    intro p hp
    obtain ⟨hrange, hdata⟩ := mem_dataPositions.1 hp
    rw [getLsbD_place_position d hrange, hdata, if_neg Bool.false_ne_true]
  calc (dataPositions (codeLen n)).map (fun p => (place d).getLsbD (p - 1))
    _ = (dataPositions (codeLen n)).map (fun p => d.getLsbD (didx p)) := List.map_congr_left hbit
    _ = ((dataPositions (codeLen n)).map didx).map d.getLsbD := List.map_map.symm
    _ = (List.range n).map d.getLsbD := by rw [map_didx_dataPositions, payloadOfLength_codeLen hn]

/-- Settles O16: DIDX numbers the data positions of a codeword from 0 to n - 1, in order. -/
theorem placeConsumesPayloadInOrder : Obligations.PlaceConsumesPayloadInOrder := by
  intro n d hn
  exact ⟨map_place_dataPositions d hn, fun p hlow hhigh => getLsbD_place_position d ⟨hlow, hhigh⟩⟩

end Sys2Proof.Machine
end

section
/-! PROOFS. 42_encoder.md R100: ENCODE is placement followed by SYND.WRITE. -/

namespace Sys2Proof.Machine

/-! ### The outputs of SYND.WRITE -/

/-- Once written, a parity position keeps its fold: every later turn writes at another power of two. -/
theorem getLsbD_arrayAfter_parity {l : Nat} (a : BitVec l) {turns j : Nat} (hturns : j < turns)
    (hj : j < indexCount l) : (arrayAfter a turns).getLsbD (2 ^ j - 1) = foldIndex (arrayAfter a j) j := by
  have hpos : 1 ≤ 2 ^ j := Nat.one_le_two_pow
  have hlt : 2 ^ j - 1 < l := lt_of_le_of_lt (Nat.sub_le _ _) (lt_indexCount.1 hj)
  induction turns with
  | zero => exact absurd hturns (Nat.not_lt_zero j)
  | succ k ih =>
    rw [getLsbD_arrayAfter_succ a k hlt]
    obtain rfl | hjk := Nat.eq_or_lt_of_le (Nat.le_of_lt_succ hturns)
    · rw [if_pos rfl]
    · have hpow : 2 ^ j < 2 ^ k := Nat.pow_lt_pow_right Nat.one_lt_two hjk
      rw [if_neg (by omega), ih hjk]

/-- 41_syndrome_engine.md R84: `s[j]` is the bit that SYND.WRITE leaves at the parity position of `j`. -/
theorem getLsbD_syndWrite_s {l j : Nat} (a : BitVec l) (hj : j < indexCount l) :
    (syndWrite a).s.getLsbD j = (syndWrite a).w.getLsbD (2 ^ j - 1) := by
  rw [syndWrite_w, getLsbD_arrayAfter_parity a hj hj, syndWrite, getLsbD_syndWriteIn_range_s a hj hj]

@[simp] theorem foldIndex_zero (l j : Nat) : foldIndex (0 : BitVec l) j = false := by
  have h := blkParity_xor (0 : BitVec l) 0 j
  rw [BitVec.xor_self, Bool.xor_self] at h
  rw [foldIndex_eq_blkParity]
  exact h

/-- Every fold of the zero array is 0, so no turn changes it. -/
@[simp] theorem arrayAfter_zero_array (l j : Nat) : arrayAfter (0 : BitVec l) j = 0 := by
  induction j with
  | zero => rfl
  | succ j ih =>
    apply BitVec.eq_of_getLsbD_eq
    intro k hk
    rw [getLsbD_arrayAfter_succ _ j hk, ih, foldIndex_zero]
    simp

/-! ### The codeword -/

@[simp] theorem place_zero (n : Nat) : place (0 : BitVec n) = 0 := by
  apply BitVec.eq_of_getLsbD_eq
  intro k hk
  simp [getLsbD_place]

theorem encodeWord_eq_syndWrite {n : Nat} (d : BitVec n) : encodeWord d = (syndWrite (place d)).w := rfl

/-- 42_encoder.md R100, corner case: the zero payload. -/
@[simp] theorem encodeWord_zero (n : Nat) : encodeWord (0 : BitVec n) = 0 := by
  rw [encodeWord_eq_syndWrite, place_zero, syndWrite_w, arrayAfter_zero_array]

/-- 42_encoder.md R100, corner case: N = 1, whose two codewords are `000` and `111`. -/
theorem getLsbD_encodeWord_one : ∀ (d : BitVec 1) (k : Fin 3), (encodeWord d).getLsbD k = d.getLsbD 0 := by
  decide

theorem getLsbD_encodeWord_of_eq_one {n k : Nat} (hn : n = 1) (d : BitVec n) (hk : k < 3) :
    (encodeWord d).getLsbD k = d.getLsbD 0 := by
  subst hn
  exact getLsbD_encodeWord_one d ⟨k, hk⟩

/-! ### The operation -/

theorem payloadRefusal_eq_none {n : Nat} (h : 1 ≤ n) : payloadRefusal n = none := by
  rw [payloadRefusal, parityCountOrRefuse_eq_ok h]

/-- 60_exceptions.md R131: `INV_EMPTY_PAYLOAD`. -/
theorem payloadRefusal_of_lt_one {n : Nat} (h : n < 1) :
    payloadRefusal n = some (.invalidInput .invEmptyPayload) := by
  rw [payloadRefusal, parityCountOrRefuse_of_lt_one h]

theorem exec_encode {s : State} (h : Safety.EncBuilt s.params) :
    exec .encode s = .next { s with enc := { s.enc with cw := encodeWord s.enc.d } } :=
  exec_encode_eq_next_enc.2 ⟨payloadRefusal_eq_none h, rfl⟩

theorem exec_encode_of_not_encBuilt {s : State} (h : ¬ Safety.EncBuilt s.params) :
    exec .encode s = .refused (.invalidInput .invEmptyPayload) := by
  rw [exec_eq_onBuilt, onBuilt_eq_refused]
  exact payloadRefusal_of_lt_one (Nat.not_le.1 h)

/-- Settles O27: the codeword is `encodeWord` of the payload, whose parity bits are the engine's `s`. -/
theorem encodeIsPlaceThenWrite : Obligations.EncodeIsPlaceThenWrite := by
  intro s
  refine ⟨fun hbuilt => ⟨encodeWord s.enc.d, exec_encode hbuilt, encodeWord_eq_syndWrite _, ?parity, ?zero, ?one⟩,
    exec_encode_of_not_encBuilt⟩
  case parity =>
    intro j hj
    exact getLsbD_syndWrite_s _ (lt_indexCount_codeLen hbuilt hj)
  case zero =>
    intro hd
    rw [hd, encodeWord_zero]
  case one =>
    intro hn k hk
    exact getLsbD_encodeWord_of_eq_one hn _ hk

end Sys2Proof.Machine
end

section
/-! PROOFS. 30_encoding.md R52, R58: a length that is no power of two is the codeword width of its payload width,
so DPOS inverts DIDX at every data position. -/

namespace Sys2Proof.Machine

theorem succ_mem_sufficientParityCounts {n r : Nat} (h : r ∈ sufficientParityCounts n) :
    r + 1 ∈ sufficientParityCounts n := by
  rw [mem_sufficientParityCounts] at h ⊢
  rw [Nat.pow_succ]
  omega

/-- 40_parity_count.md R70: every count from one that passes on passes too. -/
theorem sufficientParityCounts_upward {n r k : Nat} (hr : r ∈ sufficientParityCounts n) (hrk : r ≤ k) :
    k ∈ sufficientParityCounts n := by
  induction k, hrk using Nat.le_induction with
  | base => exact hr
  | succ k _ ih => exact succ_mem_sufficientParityCounts ih

/-- The two least positions are parity positions. -/
theorem three_le_of_not_isPow2 {p : Nat} (hp : 1 ≤ p) (h : isPow2 p = false) : 3 ≤ p := by
  have hone : p ≠ 1 := fun heq => absurd h (by rw [heq]; decide)
  have htwo : p ≠ 2 := fun heq => absurd h (by rw [heq]; decide)
  omega

theorem two_pow_log2_lt_of_not_isPow2 {l : Nat} (hl : 1 ≤ l) (h : isPow2 l = false) : 2 ^ Nat.log2 l < l := by
  have hne : 2 ^ Nat.log2 l ≠ l := fun heq => by
    simp [(isPow2_iff_exists_two_pow l).2 ⟨_, heq.symm⟩] at h
  exact lt_of_le_of_ne (Nat.log2_self_le (Nat.ne_zero_of_lt hl)) hne

theorem one_le_payloadOfLength {l : Nat} (hl : 1 ≤ l) (h : isPow2 l = false) : 1 ≤ payloadOfLength l := by
  have hpow := two_pow_log2_lt_of_not_isPow2 hl h
  have hlog : Nat.log2 l < 2 ^ Nat.log2 l := Nat.lt_two_pow_self
  rw [payloadOfLength]
  omega

/-- 30_encoding.md R58: `R = floor(log2 L) + 1` passes the test of PARITYCOUNT, and the count before it fails. -/
theorem parityCount_payloadOfLength {l : Nat} (hl : 1 ≤ l) (h : isPow2 l = false) :
    parityCount (payloadOfLength l) = Nat.log2 l + 1 := by
  have hlow := two_pow_log2_lt_of_not_isPow2 hl h
  have hhigh : l < 2 ^ (Nat.log2 l + 1) := Nat.lt_log2_self
  have hpayload := one_le_payloadOfLength hl h
  refine (parityCount_isLeast hpayload).unique ⟨?pass, ?least⟩
  case pass =>
    rw [mem_sufficientParityCounts]
    rw [payloadOfLength] at hpayload ⊢
    omega
  case least =>
    intro r hr
    by_contra hlt
    have hfail := sufficientParityCounts_upward hr (Nat.le_of_lt_succ (Nat.lt_of_not_le hlt))
    rw [mem_sufficientParityCounts] at hfail
    rw [payloadOfLength] at hpayload hfail
    omega

/-- 30_encoding.md R58: the codeword width is read back from the payload width. -/
theorem codeLen_payloadOfLength {l : Nat} (hl : 1 ≤ l) (h : isPow2 l = false) :
    codeLen (payloadOfLength l) = l := by
  have hpayload := one_le_payloadOfLength hl h
  rw [codeLen, parityCount_payloadOfLength hl h]
  rw [payloadOfLength] at hpayload ⊢
  omega

/-- 30_encoding.md R52: `DPOS(i)` is the codeword width of a payload of `i + 1` bits. -/
theorem dpos_eq_codeLen (i : Nat) : dpos i = codeLen (i + 1) := rfl

theorem dpos_didx {p : Nat} (hp : 1 ≤ p) (h : isPow2 p = false) : dpos (didx p) = p := by
  have hpayload := one_le_payloadOfLength hp h
  have hnext : didx p + 1 = payloadOfLength p := by
    rw [payloadOfLength] at hpayload ⊢
    rw [didx]
    omega
  rw [dpos_eq_codeLen, hnext, codeLen_payloadOfLength hp h]

/-- Every data position of a codeword carries one of its payload bits. -/
theorem didx_lt_of_mem_dataPositions {n p : Nat} (hn : 1 ≤ n) (hp : p ∈ dataPositions (codeLen n)) :
    didx p < n := by
  have hmem := List.mem_map_of_mem (f := didx) hp
  rwa [map_didx_dataPositions, payloadOfLength_codeLen hn, List.mem_range] at hmem

/-- 30_encoding.md R58: the codeword width of a payload is no power of two. -/
theorem isPow2_codeLen {n : Nat} (hn : 1 ≤ n) : isPow2 (codeLen n) = false := by
  rw [Bool.eq_false_iff]
  intro h
  obtain ⟨j, hj⟩ := (isPow2_iff_exists_two_pow _).1 h
  have hlow := two_pow_lt_codeLen hn
  have hhigh := codeLen_lt_two_pow hn
  rw [hj] at hlow hhigh
  have hj_low := (Nat.pow_lt_pow_iff_right Nat.one_lt_two).1 hlow
  have hj_high := (Nat.pow_lt_pow_iff_right Nat.one_lt_two).1 hhigh
  omega

/-- 30_encoding.md R58: the codeword width of a payload passes the model's test. -/
theorem validLength_codeLen {n : Nat} (hn : 1 ≤ n) : validLength (codeLen n) = true := by
  have hpow := isPow2_codeLen hn
  have hpos : 1 ≤ codeLen n := Nat.le_add_right_of_le hn
  simp [validLength, hpow, three_le_of_not_isPow2 hpos hpow]

end Sys2Proof.Machine
end

section
/-! PROOFS. 30_encoding.md R60: the codewords are the words whose recomputed syndrome bits are all 0. -/

namespace Sys2Proof.Machine

section WriteBack

variable {l : Nat} (a : BitVec l)

/-- A write either leaves the position as it is or flips it. -/
theorem setBit_eq_ite_channelFlipPos {p : Nat} (hp : 1 ≤ p ∧ p ≤ l) (b : Bit) :
    setBit a (p - 1) b = if b = a.getLsbD (p - 1) then a else channelFlipPos a p := by
  apply BitVec.eq_of_getLsbD_eq
  intro k _
  rw [getLsbD_setBit]
  by_cases hk : k = p - 1
  · subst hk
    rw [if_pos (by omega)]
    split
    case isTrue hsame => exact hsame
    case isFalse hdiff => simpa [getLsbD_channelFlipPos, hp] using Bool.eq_not.2 hdiff
  · rw [if_neg (by omega)]
    split
    case isTrue => rfl
    case isFalse => simp [getLsbD_channelFlipPos, hk]

/-- A write changes the XOR over the block sets of its position by what it changes of the bit. -/
theorem blkParity_setBit {p : Nat} (hp : 1 ≤ p ∧ p ≤ l) (b : Bit) (j : Nat) :
    blkParity (setBit a (p - 1) b) j = (blkParity a j ^^ (posBit p j && (a.getLsbD (p - 1) ^^ b))) := by
  rw [setBit_eq_ite_channelFlipPos a hp]
  split
  case isTrue hsame => simp [hsame]
  case isFalse hdiff => simp [blkParity_channelFlipPos a hp, Bool.eq_not.2 hdiff]

theorem arrayAfter_succ (j : Nat) :
    arrayAfter a (j + 1) = setBit (arrayAfter a j) (2 ^ j - 1) (foldIndex (arrayAfter a j) j) := by
  rw [arrayAfter, syndWriteIn_range_succ, writeBack_w]
  rfl

/-- Turn `i` puts the bit that stood at the parity position of `i` into the XOR over its block set, since the
position is in that block set alone. -/
theorem blkParity_arrayAfter_succ {i : Nat} (hi : i < indexCount l) (j : Nat) :
    blkParity (arrayAfter a (i + 1)) j =
      if j = i then (arrayAfter a i).getLsbD (2 ^ i - 1) else blkParity (arrayAfter a i) j := by
  have hpos : 1 ≤ 2 ^ i ∧ 2 ^ i ≤ l := ⟨Nat.one_le_two_pow, (lt_indexCount.1 hi).le⟩
  rw [arrayAfter_succ, blkParity_setBit _ hpos, posBit_eq_testBit, Nat.testBit_two_pow]
  split
  case isTrue h =>
    subst h
    simp [foldIndex_eq_blkParity, Bool.xor_left_comm]
  case isFalse h => simp [Ne.symm h]

/-- The turns leave every position but the parity positions they visit. -/
theorem getLsbD_arrayAfter_of_ne {turns k : Nat} (hk : k < l) (hne : ∀ i, i < turns → k ≠ 2 ^ i - 1) :
    (arrayAfter a turns).getLsbD k = a.getLsbD k := by
  induction turns with
  | zero => rfl
  | succ i ih =>
    have hki : k ≠ 2 ^ i - 1 := hne i (Nat.lt_succ_self i)
    rw [getLsbD_arrayAfter_succ a i hk, if_neg hki, ih fun m hm => hne m (Nat.lt_succ_of_lt hm)]

/-- After its turn, the XOR over the block set of `j` is the bit that `a` had at the parity position. -/
theorem blkParity_arrayAfter {turns j : Nat} (hj : j < turns) (hturns : turns ≤ indexCount l) :
    blkParity (arrayAfter a turns) j = a.getLsbD (2 ^ j - 1) := by
  induction turns with
  | zero => exact absurd hj (Nat.not_lt_zero j)
  | succ i ih =>
    rw [blkParity_arrayAfter_succ a hturns]
    split
    case isTrue h =>
      subst h
      have hlt : 2 ^ j < l := lt_indexCount.1 hturns
      refine getLsbD_arrayAfter_of_ne a (lt_of_le_of_lt (Nat.sub_le _ _) hlt) fun i hi => ?_
      have hpos : 1 ≤ 2 ^ i := Nat.one_le_two_pow
      have hpow : 2 ^ i < 2 ^ j := Nat.pow_lt_pow_right Nat.one_lt_two hi
      omega
    case isFalse h => exact ih (by omega) (by omega)

end WriteBack

/-- A position with bit `j` set that is a power of two is the parity position of `j`. -/
theorem not_isPow2_of_mem_blk {l j p : Nat} (hp : p ∈ blk l j) (hne : p ≠ 2 ^ j) : isPow2 p = false := by
  rw [Bool.eq_false_iff]
  intro hpow
  obtain ⟨i, rfl⟩ := (isPow2_iff_exists_two_pow p).1 hpow
  obtain ⟨-, hbit⟩ := mem_blk.1 hp
  rw [posBit_eq_testBit, Nat.testBit_two_pow, decide_eq_true_eq] at hbit
  exact hne (congrArg _ hbit)

theorem xorOver_const_false (ps : List Nat) : xorOver (fun _ => false) ps = false := by
  induction ps with
  | nil => rfl
  | cons p ps ih => rw [xorOver_cons, ih, Bool.xor_false]

/-- In a word that is 0 at its data positions, each XOR over a block set is the bit of its parity position. -/
theorem blkParity_of_data_eq_zero {l j : Nat} {a : BitVec l}
    (hdata : ∀ p ∈ dataPositions l, a.getLsbD (p - 1) = false) (hj : 2 ^ j ≤ l) :
    blkParity a j = a.getLsbD (2 ^ j - 1) := by
  have htail : ∀ p ∈ (List.Ico (2 ^ j + 1) (l + 1)).filter (posBit · j), a.getLsbD (p - 1) = false := by
    intro p hp
    have hblk : p ∈ blk l j := by
      rw [blk_eq_cons hj]
      exact List.mem_cons_of_mem _ hp
    obtain ⟨hrange, -⟩ := mem_blk.1 hblk
    have hlow : 2 ^ j + 1 ≤ p := (List.Ico.mem.1 (List.mem_of_mem_filter hp)).1
    exact hdata p (mem_dataPositions.2 ⟨hrange, not_isPow2_of_mem_blk hblk (Nat.ne_of_gt hlow)⟩)
  rw [blkParity, blk_eq_cons hj, xorOver_cons, xorOver_congr htail, xorOver_const_false, Bool.xor_false]

/-- A word is determined by its data positions and the XORs over the block sets. -/
theorem eq_of_data_eq_of_blkParity_eq {l : Nat} {a b : BitVec l}
    (hdata : ∀ p ∈ dataPositions l, a.getLsbD (p - 1) = b.getLsbD (p - 1))
    (hparity : ∀ j, 2 ^ j ≤ l → blkParity a j = blkParity b j) : a = b := by
  have hdiff : ∀ p ∈ dataPositions l, (a ^^^ b).getLsbD (p - 1) = false := by
    intro p hp
    rw [BitVec.getLsbD_xor, hdata p hp, Bool.xor_self]
  apply BitVec.eq_of_getLsbD_eq
  intro k hk
  cases hpow : isPow2 (k + 1) with
  | false => simpa using hdata (k + 1) (mem_dataPositions.2 ⟨by omega, hpow⟩)
  | true =>
    obtain ⟨j, hj⟩ := (isPow2_iff_exists_two_pow _).1 hpow
    have hle : 2 ^ j ≤ l := by omega
    have hbit := blkParity_of_data_eq_zero hdiff hle
    rw [blkParity_xor, hparity j hle, Bool.xor_self, ← hj, Nat.add_sub_cancel, BitVec.getLsbD_xor] at hbit
    simpa using hbit.symm

/-- 42_encoder.md R102, data positions: the engine passes the payload through. -/
theorem getLsbD_encodeWord_data {n p : Nat} (d : BitVec n) (hp : p ∈ dataPositions (codeLen n)) :
    (encodeWord d).getLsbD (p - 1) = d.getLsbD (didx p) := by
  obtain ⟨hrange, hdata⟩ := mem_dataPositions.1 hp
  have hne : ∀ i, i < indexCount (codeLen n) → p - 1 ≠ 2 ^ i - 1 := by
    intro i _ heq
    have hpos : 1 ≤ 2 ^ i := Nat.one_le_two_pow
    have hpow : isPow2 p = true := (isPow2_iff_exists_two_pow p).2 ⟨i, by omega⟩
    simp [hdata] at hpow
  rw [encodeWord_eq_syndWrite, syndWrite_w, getLsbD_arrayAfter_of_ne _ (by omega) hne,
    getLsbD_place_position d hrange, hdata, if_neg Bool.false_ne_true]

/-- 42_encoder.md R104: every block set of an encoded word has even parity, since PLACE puts 0 at the parity
positions. -/
theorem blkParity_encodeWord {n j : Nat} (d : BitVec n) (hj : j < indexCount (codeLen n)) :
    blkParity (encodeWord d) j = false := by
  have hrange : 1 ≤ 2 ^ j ∧ 2 ^ j ≤ codeLen n := ⟨Nat.one_le_two_pow, (lt_indexCount.1 hj).le⟩
  have hpow : isPow2 (2 ^ j) = true := (isPow2_iff_exists_two_pow _).2 ⟨j, rfl⟩
  rw [encodeWord_eq_syndWrite, syndWrite_w, blkParity_arrayAfter _ hj le_rfl, getLsbD_place_position d hrange,
    hpow, if_pos rfl]

/-- 43_decoder.md R117: extraction reads the payload bit of a data position there. -/
theorem getLsbD_extract_didx {n p : Nat} (hn : 1 ≤ n) (c : BitVec (codeLen n))
    (hp : p ∈ dataPositions (codeLen n)) :
    (extract c).getLsbD (didx p) = c.getLsbD (p - 1) := by
  obtain ⟨⟨hpos, -⟩, hdata⟩ := mem_dataPositions.1 hp
  rw [getLsbD_extract, dpos_didx hpos hdata, decide_eq_true (didx_lt_of_mem_dataPositions hn hp), Bool.true_and]

/-- A parity position inside a codeword belongs to one of its R parity bits. -/
theorem lt_parityCount_of_two_pow_le {n j : Nat} (hn : 1 ≤ n) (hj : 2 ^ j ≤ codeLen n) : j < parityCount n :=
  (Nat.pow_lt_pow_iff_right Nat.one_lt_two).1 (lt_of_le_of_lt hj (codeLen_lt_two_pow hn))

/-- 30_encoding.md R60: a word of even parity over every block set is the codeword of its own data bits, and no
other word is a codeword. -/
theorem exists_eq_encodeWord_iff {n : Nat} (hn : 1 ≤ n) (rx : BitVec (codeLen n)) :
    (∃ d, rx = encodeWord d) ↔ ∀ j, j < parityCount n → blkParity rx j = false := by
  constructor
  · rintro ⟨d, rfl⟩ j hj
    exact blkParity_encodeWord d (lt_indexCount_codeLen hn hj)
  · intro heven
    refine ⟨extract rx, eq_of_data_eq_of_blkParity_eq ?data ?parity⟩
    case data =>
      intro p hp
      rw [getLsbD_encodeWord_data _ hp, getLsbD_extract_didx hn rx hp]
    case parity =>
      intro j hj
      have hlt := lt_parityCount_of_two_pow_le hn hj
      rw [heven j hlt, blkParity_encodeWord _ (lt_indexCount_codeLen hn hlt)]

end Sys2Proof.Machine
end

section
/-! PROOFS. 43_decoder.md R110-R116: DECODE, its syndrome, and the outputs that follow from it. -/

namespace Sys2Proof.Machine

/-! ### The operation -/

/-- 60_exceptions.md R136: what a decoder is built from. -/
theorem decBuilt_cases {p : Params} (h : Safety.DecBuilt p) :
    (p.decLen = none ∧ 1 ≤ p.n) ∨ ∃ n, 1 ≤ n ∧ p.decLen = some (codeLen n) := by
  unfold Safety.DecBuilt at h
  split at h
  next hdec => exact .inl ⟨hdec, h⟩
  next l hdec =>
    obtain ⟨n, hn, rfl⟩ := h
    exact .inr ⟨n, hn, hdec⟩

/-- Built from N or from a length, a decoder has a payload of at least one bit. -/
theorem one_le_decoderN {p : Params} (h : Safety.DecBuilt p) : 1 ≤ decoderN p := by
  obtain ⟨hdec, hn⟩ | ⟨n, hn, hdec⟩ := decBuilt_cases h
  · simpa [decoderN, hdec] using hn
  · simpa [decoderN, hdec, payloadOfLength_codeLen hn] using hn

/-- 60_exceptions.md R131: a built decoder is not refused. -/
theorem buildRefusal_hamDec_eq_none {p : Params} (h : Safety.DecBuilt p) : buildRefusal p .hamDec = none := by
  obtain ⟨hdec, hn⟩ | ⟨n, hn, hdec⟩ := decBuilt_cases h
  · simp [buildRefusal, hdec, payloadRefusal_eq_none hn]
  · simp [buildRefusal, hdec, validLength_codeLen hn]

theorem exec_decode {s : State} (h : Safety.DecBuilt s.params) :
    exec .decode s = .next { s with dec := decodeWord s.dec.rx } :=
  exec_decode_eq_next_dec.2 ⟨buildRefusal_hamDec_eq_none h, rfl⟩

/-! ### The syndrome -/

/-- A number's low bits weighted by the powers of two. -/
theorem mod_two_pow_eq_sum_testBit (x w : Nat) :
    x % 2 ^ w = ∑ j ∈ Finset.range w, (x.testBit j).toNat * 2 ^ j := by
  induction w with
  | zero => simp [Nat.mod_one]
  | succ w ih => rw [Finset.sum_range_succ, ← ih, Nat.mod_pow_succ, Nat.toNat_testBit, Nat.mul_comm (2 ^ w)]

section Syndrome

variable {n : Nat} (rx : BitVec (codeLen n))

/-- 43_decoder.md R111: bit j of the syndrome word is the XOR over the block set of j. -/
theorem getLsbD_syndromeOf {j : Nat} (hn : 1 ≤ n) (hj : j < parityCount n) :
    (syndromeOf rx).getLsbD j = blkParity rx j := by
  rw [syndromeOf, syndEngine_collect, BitVec.getLsbD_setWidth, decide_eq_true hj, Bool.true_and,
    getLsbD_syndCollect_s_of_lt rx (lt_indexCount_codeLen hn hj), foldIndex_eq_blkParity]

/-- 43_decoder.md R112. -/
theorem toNat_syndromeOf (hn : 1 ≤ n) :
    (syndromeOf rx).toNat = ∑ j ∈ Finset.range (parityCount n), (blkParity rx j).toNat * 2 ^ j := by
  rw [← Nat.mod_eq_of_lt (syndromeOf rx).isLt, mod_two_pow_eq_sum_testBit]
  refine Finset.sum_congr rfl fun j hj => ?_
  rw [BitVec.testBit_toNat, getLsbD_syndromeOf rx hn (Finset.mem_range.1 hj)]

/-- 43_decoder.md R113: S is 0 exactly when every recomputed bit is. -/
theorem toNat_syndromeOf_eq_zero_iff (hn : 1 ≤ n) :
    (syndromeOf rx).toNat = 0 ↔ ∀ j, j < parityCount n → blkParity rx j = false := by
  rw [toNat_syndromeOf rx hn, Finset.sum_eq_zero_iff]
  simp

/-! ### The outputs that follow from the syndrome -/

/-- 43_decoder.md R113. -/
theorem decodeWord_err_eq_true : (decodeWord rx).err = true ↔ (syndromeOf rx).toNat ≠ 0 := by
  rw [decodeWord_err, errFlag, decide_eq_true_eq]

/-- 43_decoder.md R114. -/
theorem decodeWord_uncorr_eq_true : (decodeWord rx).uncorr = true ↔ codeLen n < (syndromeOf rx).toNat := by
  rw [decodeWord_uncorr, uncorrFlag, decide_eq_true_eq]

/-- 43_decoder.md R115: the mask inverts one bit of the received word, or none. -/
theorem getLsbD_decodeWord_corr (k : Nat) :
    (decodeWord rx).corr.getLsbD k =
      if 1 ≤ (syndromeOf rx).toNat ∧ (syndromeOf rx).toNat ≤ codeLen n ∧ k = (syndromeOf rx).toNat - 1
      then !rx.getLsbD k else rx.getLsbD k := by
  rw [decodeWord_corr, BitVec.getLsbD_xor, getLsbD_flipMask]
  split
  case isTrue h => rw [decide_eq_true h, Bool.xor_true]
  case isFalse h => rw [decide_eq_false h, Bool.xor_false]

/-- 43_decoder.md R115: a syndrome outside `1 .. L` drives no mask bit. -/
theorem decodeWord_corr_of_outside (h : (syndromeOf rx).toNat = 0 ∨ codeLen n < (syndromeOf rx).toNat) :
    (decodeWord rx).corr = rx := by
  rw [decodeWord_corr, flipMask, if_neg (by omega)]
  exact BitVec.xor_zero

/-- 43_decoder.md R116: the port is wide enough for every forward position. -/
theorem toNat_decodeWord_epos (hn : 1 ≤ n) :
    (decodeWord rx).epos.toNat = errorPosition (codeLen n) (syndromeOf rx).toNat := by
  have hle : errorPosition (codeLen n) (syndromeOf rx).toNat ≤ codeLen n := by
    unfold errorPosition forwardPos
    split <;> omega
  rw [decodeWord_epos, BitVec.toNat_ofNat, Nat.mod_eq_of_lt (lt_of_le_of_lt hle (codeLen_lt_two_pow hn))]

end Syndrome

/-- Settles O33: the flags compare S; S is 0 exactly when every recomputed bit is, and these are all 0 exactly on
codewords. -/
theorem decodeStatusOutputs : Obligations.DecodeStatusOutputs := by
  intro s hbuilt
  have hn := one_le_decoderN hbuilt
  refine ⟨decodeWord s.dec.rx, exec_decode hbuilt, rfl, decodeWord_err_eq_true _, ?someBit, ?noCodeword,
    decodeWord_uncorr_eq_true _, ?uncorrErr⟩
  case someBit =>
    rw [decodeWord_err_eq_true, Ne, toNat_syndromeOf_eq_zero_iff _ hn]
    simp
  case noCodeword =>
    rw [decodeWord_err_eq_true, exists_eq_encodeWord_iff hn, Ne, toNat_syndromeOf_eq_zero_iff _ hn]
  case uncorrErr =>
    rw [decodeWord_uncorr_eq_true, decodeWord_err_eq_true]
    exact Nat.ne_zero_of_lt

/-- Settles O34, by the weighted sum of the recomputed bits and the mask that S drives. -/
theorem decodeFlipsSyndromePosition : Obligations.DecodeFlipsSyndromePosition := by
  intro s hbuilt
  have hn := one_le_decoderN hbuilt
  exact ⟨decodeWord s.dec.rx, exec_decode hbuilt, toNat_syndromeOf _ hn, Nat.le_sub_one_of_lt (BitVec.isLt _),
    fun k _ => getLsbD_decodeWord_corr _ k, fun hzero => decodeWord_corr_of_outside _ (.inl hzero),
    fun hbeyond => decodeWord_corr_of_outside _ (.inr hbeyond)⟩

/-- Settles O35: `epos` is the forward position of S when S is a position of the word, and counting from the left
twice gives S back. -/
theorem decodeForwardErrorPosition : Obligations.DecodeForwardErrorPosition := by
  intro s hbuilt
  have hepos := toNat_decodeWord_epos s.dec.rx (one_le_decoderN hbuilt)
  refine ⟨decodeWord s.dec.rx, exec_decode hbuilt, rfl, ?inWord, ?outside⟩
  case inWord =>
    rw [hepos, decodeWord_syn]
    intro hlow hhigh
    rw [errorPosition, if_pos ⟨hlow, hhigh⟩]
    refine ⟨?_, ?_, ?_, forwardPos_forwardPos hhigh⟩ <;>
    · rw [forwardPos]
      omega
  case outside =>
    rw [hepos, decodeWord_syn]
    intro hS
    exact if_neg (by omega)

end Sys2Proof.Machine
end

section
/-! PROOFS. 60_exceptions.md R131: a refused elaboration parameter builds no block, and is refused by its name. -/

namespace Sys2Proof.Machine

/-- 30_encoding.md R58: a length that passes the model's test is the codeword width of its payload width. -/
theorem validLength_of_test {l : Nat} (h : validLength l = true) : Safety.ValidLength l := by
  obtain ⟨hthree, hpow⟩ : 3 ≤ l ∧ isPow2 l = false := by simpa [validLength] using h
  have hone : 1 ≤ l := Nat.le_trans (by decide) hthree
  exact ⟨payloadOfLength l, one_le_payloadOfLength hone hpow, (codeLen_payloadOfLength hone hpow).symm⟩

/-- 60_exceptions.md R136: a decoder built from N is refused as the encoder is. -/
theorem buildRefusal_hamDec_of_decLen_eq_none {p : Params} (hdec : p.decLen = none) :
    buildRefusal p .hamDec = payloadRefusal p.n := by
  simp [buildRefusal, hdec]

/-- 60_exceptions.md R131: `INV_CODEWORD_LENGTH`. -/
theorem buildRefusal_hamDec_of_not_validLength {p : Params} {l : Nat} (hdec : p.decLen = some l)
    (h : ¬ Safety.ValidLength l) :
    buildRefusal p .hamDec = some (.invalidInput .invCodewordLength) := by
  have htest : validLength l ≠ true := fun hl => h (validLength_of_test hl)
  simp [buildRefusal, hdec, htest]

/-- An operation is refused only for the build of its module. -/
theorem exec_eq_refused {i : Instr} {s : State} {r : Refusal} :
    exec i s = .refused r ↔ buildRefusal s.params i.unit = some r := by
  rw [exec_eq_onBuilt, onBuilt_eq_refused]

/-- 40_parity_count.md R71: `INV_SEARCH_BOUND` is never raised. -/
theorem parityCountOrRefuse_ne_searchBound (n : Nat) : parityCountOrRefuse n ≠ .error .invSearchBound := by
  obtain hlt | hge := Nat.lt_or_ge n 1
  · simp [parityCountOrRefuse_of_lt_one hlt]
  · simp [parityCountOrRefuse_eq_ok hge]

/-- Settles O45: each clause is the refusal of the module's build, which its operation answers; the search of
PARITYCOUNT ends within its bound. -/
theorem refusedParametersBuildNoBlock : Obligations.RefusedParametersBuildNoBlock := by
  refine ⟨fun s => ⟨?encode, ?payload, ?length⟩, fun n => parityCountOrRefuse_of_lt_one,
    parityCountOrRefuse_ne_searchBound⟩
  case encode =>
    intro hn
    exact exec_encode_of_not_encBuilt (Nat.not_le.2 hn)
  case payload =>
    intro hdec hn
    have hrefusal := buildRefusal_hamDec_of_decLen_eq_none hdec
    exact exec_eq_refused.2 (hrefusal.trans (payloadRefusal_of_lt_one hn))
  case length =>
    intro l hdec hl
    exact exec_eq_refused.2 (buildRefusal_hamDec_of_not_validLength hdec hl)

end Sys2Proof.Machine
end

section
/-! PROOFS. 40_parity_count.md R75, 30_encoding.md R52: PARITYCOUNT and the codeword width grow with the payload
width, so the data positions of a codeword are `DPOS(0) .. DPOS(n-1)`. -/

namespace Sys2Proof.Machine

/-- 40_parity_count.md R70: a count that passes for a payload passes for every narrower one. -/
theorem sufficientParityCounts_antitone {m n : Nat} (h : m ≤ n) :
    sufficientParityCounts n ⊆ sufficientParityCounts m := by
  intro r hr
  rw [mem_sufficientParityCounts] at hr ⊢
  omega

theorem parityCount_mono {m n : Nat} (hm : 1 ≤ m) (h : m ≤ n) : parityCount m ≤ parityCount n := by
  obtain ⟨hpass, -⟩ := parityCount_isLeast (hm.trans h)
  exact (parityCount_isLeast hm).2 (sufficientParityCounts_antitone h hpass)

theorem codeLen_lt_codeLen {m n : Nat} (hm : 1 ≤ m) (h : m < n) : codeLen m < codeLen n :=
  Nat.add_lt_add_of_lt_of_le h (parityCount_mono hm h.le)

theorem codeLen_le_codeLen {m n : Nat} (hm : 1 ≤ m) : codeLen m ≤ codeLen n ↔ m ≤ n := by
  constructor
  · intro hle
    by_contra hlt
    obtain hn | hn := Nat.eq_zero_or_pos n
    · subst hn
      exact absurd hle (Nat.not_le_of_lt (Nat.lt_add_right _ hm))
    · exact absurd hle (Nat.not_le_of_lt (codeLen_lt_codeLen hn (Nat.lt_of_not_le hlt)))
  · intro hle
    exact Nat.add_le_add hle (parityCount_mono hm hle)

/-- 30_encoding.md R52: DIDX gives the payload bit back from its position. -/
@[simp] theorem didx_dpos (i : Nat) : didx (dpos i) = i := by
  have hi : 1 ≤ i + 1 := Nat.succ_pos i
  have hone := one_le_parityCount hi
  rw [didx, dpos_eq_codeLen, log2_codeLen hi, codeLen]
  omega

theorem isPow2_dpos (i : Nat) : isPow2 (dpos i) = false :=
  isPow2_codeLen (Nat.succ_pos i)

theorem dpos_le_codeLen {i n : Nat} : dpos i ≤ codeLen n ↔ i < n :=
  codeLen_le_codeLen (Nat.succ_pos i)

theorem one_le_dpos (i : Nat) : 1 ≤ dpos i :=
  Nat.le_add_right_of_le (Nat.succ_pos i)

theorem dpos_mem_dataPositions {i n : Nat} (h : i < n) : dpos i ∈ dataPositions (codeLen n) :=
  mem_dataPositions.2 ⟨⟨one_le_dpos i, dpos_le_codeLen.2 h⟩, isPow2_dpos i⟩

end Sys2Proof.Machine
end

section
/-! PROOFS. 42_encoder.md R102: the codeword ENCODE puts out meets the closed form, and no other word does. -/

namespace Sys2Proof.Machine

open Safety

/-- 70_reset_and_hazards.md R155: a block set without its parity position. -/
theorem blk_filter_ne {l j : Nat} (h : 2 ^ j ≤ l) :
    ((blk l j).filter fun p => p ≠ 2 ^ j) = (List.Ico (2 ^ j + 1) (l + 1)).filter fun p => posBit p j := by
  have hnodup := nodup_blk l j
  rw [blk_eq_cons h] at hnodup ⊢
  have hkeep : ∀ p ∈ (List.Ico (2 ^ j + 1) (l + 1)).filter (posBit · j), decide (p ≠ 2 ^ j) = true := by
    intro p hp
    exact decide_eq_true fun heq => (List.nodup_cons.1 hnodup).1 (heq ▸ hp)
  rw [List.filter_cons_of_neg (by simp), List.filter_eq_self.2 hkeep]

/-- The XOR over a block set, its parity position taken apart from the others. -/
theorem blkParity_eq_xor_filter_ne {l j : Nat} (a : BitVec l) (h : 2 ^ j ≤ l) :
    blkParity a j = (a.getLsbD (2 ^ j - 1) ^^
      xorOver (fun p => a.getLsbD (p - 1)) ((blk l j).filter fun p => p ≠ 2 ^ j)) := by
  rw [blk_filter_ne h, blkParity, blk_eq_cons h, xorOver_cons]

theorem mem_blk_filter_ne {l j p : Nat} (hp : p ∈ (blk l j).filter fun p => p ≠ 2 ^ j) :
    p ∈ dataPositions l := by
  obtain ⟨hblk, hne⟩ := List.mem_filter.1 hp
  exact mem_dataPositions.2 ⟨(mem_blk.1 hblk).1, not_isPow2_of_mem_blk hblk (of_decide_eq_true hne)⟩

/-- 42_encoder.md R102, parity positions: each makes the parity of its block set even. -/
theorem getLsbD_encodeWord_parity {n j : Nat} (hn : 1 ≤ n) (d : BitVec n) (hj : j < parityCount n) :
    (encodeWord d).getLsbD (2 ^ j - 1) =
      xorOver (fun p => d.getLsbD (didx p)) ((blk (codeLen n) j).filter fun p => p ≠ 2 ^ j) := by
  have hindex := lt_indexCount_codeLen hn hj
  have heven := blkParity_encodeWord d hindex
  rw [blkParity_eq_xor_filter_ne _ (lt_indexCount.1 hindex).le, bne_eq_false_iff_eq] at heven
  rw [heven]
  exact xorOver_congr fun p hp => getLsbD_encodeWord_data d (mem_blk_filter_ne hp)

theorem encOk_settledEnc {n : Nat} (hn : 1 ≤ n) (d : BitVec n) : EncOk (settledEnc d) := by
  constructor
  · intro i hi
    simp [getLsbD_encodeWord_data d (dpos_mem_dataPositions hi)]
  · intro j hj
    exact getLsbD_encodeWord_parity hn d hj

/-- The closed form leaves no bit of the codeword open: every position is a data or a parity position. -/
theorem encOk_unique {n : Nat} (hn : 1 ≤ n) {e e' : EncPorts n} (h : EncOk e) (h' : EncOk e') (hd : e.d = e'.d) :
    e = e' := by
  obtain ⟨d, cw⟩ := e
  obtain ⟨d', cw'⟩ := e'
  obtain rfl : d = d' := hd
  obtain ⟨hdata, hparity⟩ := h
  obtain ⟨hdata', hparity'⟩ := h'
  congr 1
  apply BitVec.eq_of_getLsbD_eq
  intro k hk
  cases hpow : isPow2 (k + 1) with
  | false =>
    have hlt := didx_lt_of_mem_dataPositions hn (mem_dataPositions.2 ⟨⟨Nat.succ_pos k, hk⟩, hpow⟩)
    have hpos : k = dpos (didx (k + 1)) - 1 := by rw [dpos_didx (Nat.succ_pos k) hpow]; rfl
    rw [hpos]
    exact (hdata _ hlt).trans (hdata' _ hlt).symm
  | true =>
    obtain ⟨j, hj⟩ := (isPow2_iff_exists_two_pow _).1 hpow
    have hlt : j < parityCount n := lt_parityCount_of_two_pow_le hn (hj ▸ hk)
    have hpos : k = 2 ^ j - 1 := by omega
    rw [hpos]
    exact (hparity j hlt).trans (hparity' j hlt).symm

end Sys2Proof.Machine
end

section
/-! PROOFS. 43_decoder.md R111-R117: the outputs of DECODE meet their rules, and no others do. -/

namespace Sys2Proof.Machine

open Safety

theorem decOk_decodeWord {n : Nat} (hn : 1 ≤ n) (rx : BitVec (codeLen n)) : DecOk (decodeWord rx) := by
  refine ⟨fun j hj => getLsbD_syndromeOf rx hn hj, rfl, rfl, ?corr, ?epos, ?dout⟩
  case corr =>
    intro k _
    rw [decodeWord_corr, BitVec.getLsbD_xor, getLsbD_flipMask]
    rfl
  case epos =>
    rw [toNat_decodeWord_epos rx hn, errorPosition, decodeWord_syn]
    split
    case isTrue h =>
      rw [forwardPos]
      omega
    case isFalse => rfl
  case dout =>
    intro i hi
    rw [decodeWord_dout, getLsbD_extract, decide_eq_true hi, Bool.true_and]

/-- The rules leave no output bit of the decoder open: each follows from `rx` and the outputs before it. -/
theorem decOk_unique {n : Nat} {q q' : DecPorts n} (h : DecOk q) (h' : DecOk q') (hrx : q.rx = q'.rx) :
    q = q' := by
  obtain ⟨rx, syn, err, uncorr, corr, epos, dout⟩ := q
  obtain ⟨rx', syn', err', uncorr', corr', epos', dout'⟩ := q'
  obtain rfl : rx = rx' := hrx
  obtain ⟨hsyn, herr, huncorr, hcorr, hepos, hdout⟩ := h
  obtain ⟨hsyn', herr', huncorr', hcorr', hepos', hdout'⟩ := h'
  obtain rfl : syn = syn' := BitVec.eq_of_getLsbD_eq fun j hj => (hsyn j hj).trans (hsyn' j hj).symm
  obtain rfl : corr = corr' := BitVec.eq_of_getLsbD_eq fun k hk => (hcorr k hk).trans (hcorr' k hk).symm
  congr 1
  · exact herr.trans herr'.symm
  · exact huncorr.trans huncorr'.symm
  · exact BitVec.eq_of_toNat_eq (hepos.trans hepos'.symm)
  · exact BitVec.eq_of_getLsbD_eq fun i hi => (hdout i hi).trans (hdout' i hi).symm

end Sys2Proof.Machine
end

section
/-! PROOFS. 41_syndrome_engine.md R87: the outputs of the engine meet the parallel form, and no others do. -/

namespace Sys2Proof.Machine

open Safety

section Engine

variable {l : Nat} (a : BitVec l)

/-- The turns before that of `j` leave the XOR over its block set. -/
theorem blkParity_arrayAfter_of_le {turns j : Nat} (hj : turns ≤ j) (hturns : turns ≤ indexCount l) :
    blkParity (arrayAfter a turns) j = blkParity a j := by
  induction turns with
  | zero => rfl
  | succ i ih => rw [blkParity_arrayAfter_succ a hturns, if_neg (by omega), ih (by omega) (by omega)]

/-- 41_syndrome_engine.md R87: SYND.WRITE folds each index over the array as it was driven. -/
theorem getLsbD_syndWrite_s_eq_blkParity {j : Nat} (hj : j < indexCount l) :
    (syndWrite a).s.getLsbD j = blkParity a j := by
  rw [syndWrite, getLsbD_syndWriteIn_range_s a hj hj, foldIndex_eq_blkParity,
    blkParity_arrayAfter_of_le a le_rfl hj.le]

/-- 41_syndrome_engine.md R87: in either mode `s[j]` is the XOR over the block set of j. -/
theorem getLsbD_syndEngine_s (mode : Bit) {j : Nat} (hj : j < indexCount l) :
    (syndEngine mode a).s.getLsbD j = blkParity a j := by
  cases mode with
  | true => exact getLsbD_syndWrite_s_eq_blkParity a hj
  | false => exact (getLsbD_syndCollect_s_of_lt a hj).trans (foldIndex_eq_blkParity a j)

theorem syndOk_settledSynd (mode : Bit) : SyndOk (settledSynd a mode) := by
  refine ⟨fun j hj => getLsbD_syndEngine_s a mode hj, ?parity, ?others⟩
  case parity =>
    intro j hj
    cases mode with
    | true => exact (getLsbD_syndWrite_s a hj).symm
    | false => rfl
  case others =>
    intro k hk hne
    cases mode with
    | true => exact getLsbD_arrayAfter_of_ne a hk hne
    | false => rfl

end Engine

/-- The parallel form leaves no output bit of the engine open. -/
theorem syndOk_unique {le : Nat} {q q' : SyndPorts le} (h : SyndOk q) (h' : SyndOk q') (ha : q.a = q'.a)
    (hmode : q.mode = q'.mode) : q = q' := by
  obtain ⟨a, mode, s, w⟩ := q
  obtain ⟨a', mode', s', w'⟩ := q'
  obtain rfl : a = a' := ha
  obtain rfl : mode = mode' := hmode
  obtain ⟨hs, hparity, hothers⟩ := h
  obtain ⟨hs', hparity', hothers'⟩ := h'
  obtain rfl : s = s' := BitVec.eq_of_getLsbD_eq fun j hj => (hs j hj).trans (hs' j hj).symm
  congr 1
  apply BitVec.eq_of_getLsbD_eq
  intro k hk
  by_cases hvisited : ∃ j, j < indexCount le ∧ k = 2 ^ j - 1
  · obtain ⟨j, hj, rfl⟩ := hvisited
    exact (hparity j hj).trans (hparity' j hj).symm
  · have hne : ∀ j, j < indexCount le → k ≠ 2 ^ j - 1 := fun j hj heq => hvisited ⟨j, hj, heq⟩
    exact (hothers k hk hne).trans (hothers' k hk hne).symm

end Sys2Proof.Machine
end

section
/-! PROOFS. 60_exceptions.md R131: the model's build check passes exactly when the module is built. -/

namespace Sys2Proof.Machine

open Safety

theorem buildRefusal_hamEnc_eq_none_iff {p : Params} : buildRefusal p .hamEnc = none ↔ EncBuilt p := by
  constructor
  · intro h
    by_contra hn
    have hrefused : buildRefusal p .hamEnc = _ := payloadRefusal_of_lt_one (Nat.not_le.1 hn)
    rw [hrefused] at h
    cases h
  · exact payloadRefusal_eq_none

/-- 60_exceptions.md R136: the decoder's refusal is by the parameter it is built from. -/
theorem buildRefusal_hamDec_eq_none_iff {p : Params} : buildRefusal p .hamDec = none ↔ DecBuilt p := by
  refine ⟨fun h => ?_, buildRefusal_hamDec_eq_none⟩
  by_contra hp
  unfold DecBuilt at hp
  split at hp
  next hdec =>
    rw [buildRefusal_hamDec_of_decLen_eq_none hdec, payloadRefusal_of_lt_one (Nat.not_le.1 hp)] at h
    cases h
  next l hdec =>
    rw [buildRefusal_hamDec_of_not_validLength hdec hp] at h
    cases h

/-- Log entry 5: an engine of no array is refused. -/
theorem buildRefusal_hamSynd_of_not_syndBuilt {p : Params} (h : ¬ SyndBuilt p) :
    buildRefusal p .hamSynd = some .engineLength :=
  if_neg h

theorem buildRefusal_hamSynd_eq_none_iff {p : Params} : buildRefusal p .hamSynd = none ↔ SyndBuilt p := by
  refine ⟨fun h => ?_, fun h => if_pos h⟩
  by_contra hp
  rw [buildRefusal_hamSynd_of_not_syndBuilt hp] at h
  cases h

theorem buildRefusal_eq_none_iff {p : Params} {u : HwUnit} : buildRefusal p u = none ↔ UnitBuilt p u := by
  cases u with
  | hamEnc => exact buildRefusal_hamEnc_eq_none_iff
  | hamDec => exact buildRefusal_hamDec_eq_none_iff
  | hamSynd => exact buildRefusal_hamSynd_eq_none_iff

theorem firstRefusal_eq_none_iff {p : Params} : firstRefusal p = none ↔ AllBuilt p := by
  simp only [firstRefusal, Option.or_eq_none_iff, buildRefusal_eq_none_iff]
  rfl

end Sys2Proof.Machine
end

section
/-! PROOFS. 10_state.md R27, R29: every step keeps every output the function of its module's inputs. -/

namespace Sys2Proof.Machine

open Safety

/-- What is left of `Settled` while a new word stands at the input of one module: the outputs of the others. -/
def SettledApartFrom (u : HwUnit) (s : State) : Prop :=
  (u ≠ .hamEnc → EncOk s.enc) ∧ (u ≠ .hamDec → DecOk s.dec) ∧ (u ≠ .hamSynd → SyndOk s.synd)

/-- A driven input reaches its own module alone. -/
theorem drive_settledApartFrom {u : HwUnit} {input : Option (List Char)} {s t : State} (hs : Settled s)
    (h : drive u input s = .ok t) : SettledApartFrom u t := by
  obtain ⟨henc, hdec, hsynd⟩ := hs
  obtain ⟨-, ⟨-, rfl⟩ | ⟨cs, -, ⟨rfl, v, -, rfl⟩ | ⟨rfl, v, -, rfl⟩ | ⟨rfl, v, -, rfl⟩⟩⟩ := drive_eq_ok h
  · exact ⟨fun _ => henc, fun _ => hdec, fun _ => hsynd⟩
  · exact ⟨fun hne => absurd rfl hne, fun _ => hdec, fun _ => hsynd⟩
  · exact ⟨fun _ => henc, fun hne => absurd rfl hne, fun _ => hsynd⟩
  · exact ⟨fun _ => henc, fun _ => hdec, fun hne => absurd rfl hne⟩

/-- Evaluating a built module settles its outputs, and leaves those of the others. -/
theorem settled_evalOf {i : Instr} {s : State} (hbuilt : UnitBuilt s.params i.unit)
    (h : SettledApartFrom i.unit s) : Settled (evalOf i s) := by
  obtain ⟨henc, hdec, hsynd⟩ := h
  cases i with
  | syndCollect => exact ⟨henc (by decide), hdec (by decide), syndOk_settledSynd _ _⟩
  | syndWrite => exact ⟨henc (by decide), hdec (by decide), syndOk_settledSynd _ _⟩
  | encode => exact ⟨encOk_settledEnc hbuilt _, hdec (by decide), hsynd (by decide)⟩
  | decode => exact ⟨henc (by decide), decOk_decodeWord (one_le_decoderN hbuilt) _, hsynd (by decide)⟩

/-- Where every module is built, idling settles every output. -/
theorem settled_settle {s : State} (h : AllBuilt s.params) : Settled (settle s) := by
  obtain ⟨henc, hdec, -⟩ := h
  exact ⟨encOk_settledEnc henc _, decOk_decodeWord (one_le_decoderN hdec) _, syndOk_settledSynd _ _⟩

/-- Settles O53: an idle step evaluates every module, and a transaction evaluates the one module whose input it
drives. -/
theorem everyStepKeepsOutputsSettled : Obligations.EveryStepKeepsOutputsSettled := by
  intro s s' hs hstep
  obtain ⟨-, hbuilt, rfl⟩ | ⟨t, rest, i, s₁, -, hfetch, hdrive, hbuilt, rfl⟩ := step_cases hstep
  case inl => exact settled_settle (firstRefusal_eq_none_iff.1 hbuilt)
  case inr =>
    have hunit : i.unit = t.unit := decode_unit (fetch_eq_ok.1 hfetch)
    have hothers : SettledApartFrom t.unit s₁ := drive_settledApartFrom (s := { s with pending := rest }) hs hdrive
    exact settled_evalOf (buildRefusal_eq_none_iff.1 hbuilt) (hunit ▸ hothers)

end Sys2Proof.Machine
end

section
/-! PROOFS. What each operation answers once its module is built, in the closed forms of the spec. -/

namespace Sys2Proof.Machine

open Safety

/-- Settles O28: the ports of ENCODE meet the closed form. -/
theorem encodeSynthesisesParity : Obligations.EncodeSynthesisesParity := by
  intro s hbuilt
  exact ⟨encodeWord s.enc.d, exec_encode hbuilt, encOk_settledEnc hbuilt s.enc.d⟩

/-- 42_encoder.md R104: every fold of an encoded word is 0. -/
theorem syndCollect_encodeWord_s {n : Nat} (d : BitVec n) : (syndCollect (encodeWord d)).s = 0 := by
  apply BitVec.eq_of_getLsbD_eq
  intro j hj
  rw [getLsbD_syndCollect_s_of_lt _ hj, foldIndex_eq_blkParity, blkParity_encodeWord d hj]
  simp

/-- Settles O30. -/
theorem encodedWordHasZeroSyndrome : Obligations.EncodedWordHasZeroSyndrome := by
  intro s hbuilt
  exact ⟨encodeWord s.enc.d, exec_encode hbuilt, syndCollect_encodeWord_s s.enc.d⟩

/-- Settles O21: the engine's loop meets the parallel form. -/
theorem syndWriteEqualsParallelForm : Obligations.SyndWriteEqualsParallelForm := by
  intro s hbuilt
  exact ⟨settledSynd s.synd.a modeWrite, exec_syndWrite hbuilt, rfl, rfl, syndOk_settledSynd _ _⟩

/-- Settles O32: the ports of DECODE meet their rules. -/
theorem decodeOutputsFollowRules : Obligations.DecodeOutputsFollowRules := by
  intro s hbuilt
  exact ⟨decodeWord s.dec.rx, exec_decode hbuilt, rfl, decOk_decodeWord (one_le_decoderN hbuilt) _⟩

theorem decBuilt_of_decLen_eq_codeLen {p : Params} {n : Nat} (hn : 1 ≤ n) (h : p.decLen = some (codeLen n)) :
    DecBuilt p := by
  rw [DecBuilt, h]
  exact ⟨n, hn, rfl⟩

/-- 43_decoder.md R121: the payload width of a decoder is read back from the length it was built from. -/
theorem decoderN_of_decLen_eq_codeLen {p : Params} {n : Nat} (hn : 1 ≤ n) (h : p.decLen = some (codeLen n)) :
    decoderN p = n := by
  rw [decoderN, h]
  exact payloadOfLength_codeLen hn

/-- Settles O44: a valid length builds the decoder of its payload width, which follows its rules. -/
theorem decoderBuiltFromLength : Obligations.DecoderBuiltFromLength := by
  intro s n hn hdec
  exact ⟨decoderN_of_decLen_eq_codeLen hn hdec,
    decodeOutputsFollowRules s (decBuilt_of_decLen_eq_codeLen hn hdec)⟩

/-- Settles O47: an operation is its module's evaluation where the build check passes, and that check's refusal
elsewhere. -/
theorem operationCompletesExactlyWhenBuilt : Obligations.OperationCompletesExactlyWhenBuilt := by
  refine ⟨fun p u => buildRefusal_eq_none_iff, fun i s => ⟨?completes, fun r => exec_eq_refused⟩⟩
  simp only [exec_eq_next, buildRefusal_eq_none_iff, exists_and_left, exists_eq, and_true]

/-- Settles O48: each operation that completes answers its evaluation, which updates its module's ports. -/
theorem operationFrames : Obligations.OperationFrames := by
  intro s t
  refine ⟨fun h => ?encode, fun h => ?decode, fun h => ?collect, fun h => ?write⟩ <;>
    obtain ⟨-, rfl⟩ := exec_eq_next.1 h
  case encode => exact ⟨encodeWord s.enc.d, rfl⟩
  case decode => exact ⟨decodeWord s.dec.rx, rfl, rfl⟩
  case collect => exact ⟨(syndCollect s.synd.a).s, rfl⟩
  case write => exact ⟨(syndWrite s.synd.a).s, (syndWrite s.synd.a).w, rfl⟩

/-- An evaluation of another module does not touch the input of this one. -/
theorem evalDec_evalEnc (s : State) : evalDec (evalEnc s) = evalEnc (evalDec s) := rfl

/-- Settles O50: each operation finds its module built and its input as it was, whichever is first. -/
theorem encodeAndDecodeCommute : Obligations.EncodeAndDecodeCommute := by
  intro s henc hdec
  have henc_check : buildRefusal s.params .hamEnc = none := payloadRefusal_eq_none henc
  have hdec_check := buildRefusal_hamDec_eq_none hdec
  refine ⟨evalEnc s, evalDec s, evalEnc (evalDec s), ?_, ?_, ?_, ?_⟩
  · exact exec_eq_next.2 ⟨henc_check, rfl⟩
  · exact exec_eq_next.2 ⟨hdec_check, (evalDec_evalEnc s).symm⟩
  · exact exec_eq_next.2 ⟨hdec_check, rfl⟩
  · exact exec_eq_next.2 ⟨henc_check, rfl⟩

/-- Settles O46: the refusal is that of the engine's build. -/
theorem engineWithoutArrayRefused : Obligations.EngineWithoutArrayRefused := by
  intro s hle
  have hrefusal := buildRefusal_hamSynd_of_not_syndBuilt (p := s.params) (Nat.not_le.2 hle)
  exact ⟨exec_eq_refused.2 hrefusal, exec_eq_refused.2 hrefusal⟩

end Sys2Proof.Machine
end

section
/-! PROOFS. 70_reset_and_hazards.md R150: the step with no transaction. -/

namespace Sys2Proof.Machine

open Safety

theorem step_of_pending_eq_nil {s : State} (h : s.pending = []) : step s = idle s := by
  rw [step, h]

theorem idle_of_allBuilt {s : State} (h : AllBuilt s.params) : idle s = .next (settle s) :=
  idle_eq_next.2 ⟨firstRefusal_eq_none_iff.2 h, rfl⟩

theorem idle_of_firstRefusal {s : State} {r : Refusal} (h : firstRefusal s.params = some r) :
    idle s = .refused r := by
  rw [idle, h]

/-- Settles O51: idling settles every output, and leaves the inputs. -/
theorem idleStepSettlesOutputs : Obligations.IdleStepSettlesOutputs := by
  intro s hbuilt hidle
  obtain ⟨henc, hdec, hsynd⟩ := settled_settle hbuilt
  refine ⟨encodeWord s.enc.d, decodeWord s.dec.rx, settledSynd s.synd.a s.synd.mode, ?step, henc, rfl, hdec, rfl,
    rfl, hsynd⟩
  rw [step_of_pending_eq_nil hidle, idle_of_allBuilt hbuilt]
  rfl

/-- In a settled machine the outputs are already what an evaluation gives: the closed forms are met once only. -/
theorem settle_of_settled {s : State} (hbuilt : AllBuilt s.params) (h : Settled s) : settle s = s := by
  obtain ⟨henc, hdec, hsynd⟩ := h
  obtain ⟨henc', hdec', hsynd'⟩ := settled_settle hbuilt
  have henc_eq : settledEnc s.enc.d = s.enc := encOk_unique hbuilt.1 henc' henc rfl
  have hdec_eq : decodeWord s.dec.rx = s.dec := decOk_unique hdec' hdec rfl
  have hsynd_eq : settledSynd s.synd.a s.synd.mode = s.synd := syndOk_unique hsynd' hsynd rfl rfl
  calc settle s
    _ = { s with enc := settledEnc s.enc.d, dec := decodeWord s.dec.rx,
                 synd := settledSynd s.synd.a s.synd.mode } := rfl
    _ = s := by rw [henc_eq, hdec_eq, hsynd_eq]

/-- Settles O52. -/
theorem settledMachineStaysPut : Obligations.SettledMachineStaysPut := by
  intro s hbuilt hidle hs
  rw [step_of_pending_eq_nil hidle, idle_of_allBuilt hbuilt, settle_of_settled hbuilt hs]

theorem firstRefusal_of_hamEnc {p : Params} {r : Refusal} (h : buildRefusal p .hamEnc = some r) :
    firstRefusal p = some r := by
  rw [firstRefusal, h, Option.some_or]

theorem firstRefusal_of_hamDec {p : Params} {r : Refusal} (henc : EncBuilt p)
    (h : buildRefusal p .hamDec = some r) : firstRefusal p = some r := by
  rw [firstRefusal, buildRefusal_hamEnc_eq_none_iff.2 henc, h, Option.none_or, Option.some_or]

theorem firstRefusal_of_hamSynd {p : Params} {r : Refusal} (henc : EncBuilt p) (hdec : DecBuilt p)
    (h : buildRefusal p .hamSynd = some r) : firstRefusal p = some r := by
  rw [firstRefusal, buildRefusal_hamEnc_eq_none_iff.2 henc, buildRefusal_hamDec_eq_none_iff.2 hdec, h,
    Option.none_or, Option.none_or]

/-- Beside a built encoder, a decoder that is not built was given an invalid length. -/
theorem exists_decLen_of_not_decBuilt {p : Params} (henc : EncBuilt p) (hdec : ¬ DecBuilt p) :
    ∃ l, p.decLen = some l ∧ ¬ ValidLength l := by
  unfold DecBuilt at hdec
  split at hdec
  next => exact absurd henc hdec
  next l hlen => exact ⟨l, hlen, hdec⟩

/-- Settles O59: idling answers the first refusal among the three builds, in the order of the clauses. -/
theorem idleStepAnswersFirstRefusal : Obligations.IdleStepAnswersFirstRefusal := by
  intro s hidle
  rw [step_of_pending_eq_nil hidle]
  refine ⟨fun henc => ?enc, fun henc hdec => ?dec, fun henc hdec hsynd => ?synd⟩
  case enc => exact idle_of_firstRefusal (firstRefusal_of_hamEnc (payloadRefusal_of_lt_one (Nat.not_le.1 henc)))
  case dec =>
    obtain ⟨l, hlen, hl⟩ := exists_decLen_of_not_decBuilt henc hdec
    exact idle_of_firstRefusal (firstRefusal_of_hamDec henc (buildRefusal_hamDec_of_not_validLength hlen hl))
  case synd =>
    exact idle_of_firstRefusal (firstRefusal_of_hamSynd henc hdec (buildRefusal_hamSynd_of_not_syndBuilt hsynd))

end Sys2Proof.Machine
end

section
/-! PROOFS. 10_state.md R22, R30, 60_exceptions.md R140: the step that makes a transaction. -/

namespace Sys2Proof.Machine

open Safety

theorem step_of_pending_eq_cons {s : State} {t : Transaction} {rest : List Transaction}
    (h : s.pending = t :: rest) : step s = transact t { s with pending := rest } := by
  rw [step, h]

/-- A transaction whose word is fetched and whose input is driven is its operation. -/
theorem transact_of_drive_eq_ok {t : Transaction} {s s₁ : State} {i : Instr} (hfetch : fetch t = .ok i)
    (hdrive : drive t.unit t.input s = .ok s₁) : transact t s = exec i s₁ := by
  simp only [transact, hfetch, hdrive]

/-- A module whose input is driven is built, so its operation completes. -/
theorem exec_of_drive_eq_ok {t : Transaction} {s s₁ : State} {i : Instr} (hfetch : fetch t = .ok i)
    (hdrive : drive t.unit t.input s = .ok s₁) : exec i s₁ = .next (evalOf i s₁) := by
  obtain ⟨hbuilt, -⟩ := drive_eq_ok hdrive
  rw [exec_eq_next, decode_unit (fetch_eq_ok.1 hfetch), drive_params hdrive]
  exact ⟨hbuilt, rfl⟩

/-- 60_exceptions.md R140: a transaction completes exactly when its word is fetched and its input driven. -/
theorem exists_transact_eq_next {t : Transaction} {s : State} :
    (∃ s', transact t s = .next s') ↔ ∃ i s₁, fetch t = .ok i ∧ drive t.unit t.input s = .ok s₁ := by
  constructor
  · rintro ⟨s', h⟩
    obtain ⟨i, s₁, hfetch, hdrive, -⟩ := transact_eq_next.1 h
    exact ⟨i, s₁, hfetch, hdrive⟩
  · rintro ⟨i, s₁, hfetch, hdrive⟩
    exact ⟨_, (transact_of_drive_eq_ok hfetch hdrive).trans (exec_of_drive_eq_ok hfetch hdrive)⟩

/-- 60_exceptions.md R140: a transaction is refused for its word, or else for its input; its operation refuses
nothing more. -/
theorem transact_eq_refused {t : Transaction} {s : State} {r : Refusal} :
    transact t s = .refused r ↔
      fetch t = .error r ∨ ((∃ i, fetch t = .ok i) ∧ drive t.unit t.input s = .error r) := by
  cases hfetch : fetch t with
  | error r' => simp [transact, hfetch]
  | ok i =>
    cases hdrive : drive t.unit t.input s with
    | error r' => simp [transact, hfetch, hdrive]
    | ok s₁ =>
      rw [transact_of_drive_eq_ok hfetch hdrive, exec_of_drive_eq_ok hfetch hdrive]
      simp

/-- Settles O56, by what a transaction can answer. -/
theorem transactionRefusedOnlyForWordOrInput : Obligations.TransactionRefusedOnlyForWordOrInput := by
  intro s t rest hpending
  rw [step_of_pending_eq_cons hpending]
  exact ⟨exists_transact_eq_next, fun r => transact_eq_refused⟩

/-- Settles O55: neither an evaluation nor a driven input changes a parameter. -/
theorem parametersNeverChange : Obligations.ParametersNeverChange := by
  intro s s' hstep
  obtain ⟨-, -, rfl⟩ | ⟨t, rest, i, s₁, -, -, hdrive, -, rfl⟩ := step_cases hstep
  · exact settle_params s
  · rw [evalOf_params, drive_params hdrive]

/-- A transaction of a module that was not built is refused for the build, whatever its input. -/
theorem step_of_buildRefusal {s : State} {t : Transaction} {rest : List Transaction} {i : Instr} {r : Refusal}
    (hpending : s.pending = t :: rest) (hdecode : decode t.unit t.word = .ok (i, []))
    (hbuild : buildRefusal s.params t.unit = some r) : step s = .refused r := by
  rw [step_of_pending_eq_cons hpending, transact_eq_refused]
  exact .inr ⟨⟨i, fetch_eq_ok.2 hdecode⟩, drive_eq_error.2 (.inl hbuild)⟩

/-- Settles O58: each clause is the refusal of the module's build. -/
theorem stepRefusesUnbuiltModule : Obligations.StepRefusesUnbuiltModule := by
  intro s t rest i hpending hdecode
  refine ⟨fun hunit hn => ?enc, fun hunit hdec hn => ?payload, fun l hunit hdec hl => ?length,
    fun hunit hle => ?synd⟩ <;>
    refine step_of_buildRefusal hpending hdecode (hunit ▸ ?_)
  case enc => exact payloadRefusal_of_lt_one hn
  case payload => exact (buildRefusal_hamDec_of_decLen_eq_none hdec).trans (payloadRefusal_of_lt_one hn)
  case length => exact buildRefusal_hamDec_of_not_validLength hdec hl
  case synd => exact buildRefusal_hamSynd_of_not_syndBuilt (Nat.not_le.2 hle)

end Sys2Proof.Machine
end

section
/-! PROOFS. 30_encoding.md R62: the word of a transaction, and the step that runs it. -/

namespace Sys2Proof.Machine

open Safety

/-- Settles O1: the four rows are runs of the decoder. -/
theorem opcodeWordsDecode : Obligations.OpcodeWordsDecode :=
  ⟨rfl, rfl, rfl, rfl⟩

/-- Settles O2, row by row. -/
theorem decodeOfEncodedOperation : Obligations.DecodeOfEncodedOperation := by
  intro i rest
  cases i <;> rfl

/-- 10_state.md R26: HAM_ENC has its mode tied to 1. -/
theorem decode_hamEnc_cons (b : Byte) (rest : List Byte) :
    decode .hamEnc (b :: rest) = if b.getLsbD 0 then .ok (.encode, rest) else .error .tiedMode := rfl

/-- 10_state.md R26: HAM_DEC has its mode tied to 0. -/
theorem decode_hamDec_cons (b : Byte) (rest : List Byte) :
    decode .hamDec (b :: rest) = if b.getLsbD 0 then .error .tiedMode else .ok (.decode, rest) := by
  cases h : b.getLsbD 0 <;> simp only [decode, modeBit, modeCollect, h] <;> rfl

theorem decode_hamSynd_cons (b : Byte) (rest : List Byte) :
    decode .hamSynd (b :: rest) = .ok (if b.getLsbD 0 then .syndWrite else .syndCollect, rest) := rfl

theorem decode_nil (u : HwUnit) : decode u [] = .error .noWord := by
  cases u <;> rfl

/-- Settles O3: the decoder's equation for each module. -/
theorem modeBitAloneSelects : Obligations.ModeBitAloneSelects := by
  intro b rest
  exact ⟨decode_hamSynd_cons b rest, decode_hamEnc_cons b rest, decode_hamDec_cons b rest, decode_nil⟩

theorem step_of_fetch_eq_error {s : State} {t : Transaction} {rest : List Transaction} {r : Refusal}
    (hpending : s.pending = t :: rest) (hfetch : fetch t = .error r) : step s = .refused r := by
  rw [step_of_pending_eq_cons hpending, transact_eq_refused]
  exact .inl hfetch

theorem fetch_of_decode_eq_error {t : Transaction} {why : DecodeError} (h : decode t.unit t.word = .error why) :
    fetch t = .error (.undecodable why) := by
  rw [fetch, h]

/-- A first byte that the module knows leaves every byte after it. -/
theorem fetch_of_trailing_byte {t : Transaction} {i : Instr} {c : Byte} {bs : List Byte}
    (h : decode t.unit t.word = .ok (i, c :: bs)) : fetch t = .error (.undecodable .trailingBytes) := by
  rw [fetch, h]

/-- Settles O57: each clause is what the fetch of the word answers. -/
theorem stepRefusesUndecodableWords : Obligations.StepRefusesUndecodableWords := by
  intro s t rest hpending
  refine ⟨fun hword => ?noWord, fun b bs hword hunit hbit => ?enc, fun b bs hword hunit hbit => ?dec,
    fun b c bs hword henc hdec => ?trailing⟩ <;>
    apply step_of_fetch_eq_error hpending
  case noWord => exact fetch_of_decode_eq_error (hword ▸ decode_nil t.unit)
  case enc => exact fetch_of_decode_eq_error (by rw [hword, hunit, decode_hamEnc_cons, hbit]; rfl)
  case dec => exact fetch_of_decode_eq_error (by rw [hword, hunit, decode_hamDec_cons, hbit]; rfl)
  case trailing =>
    cases hunit : t.unit with
    | hamSynd => exact fetch_of_trailing_byte (by rw [hword, hunit, decode_hamSynd_cons])
    | hamEnc => exact fetch_of_trailing_byte (by rw [hword, hunit, decode_hamEnc_cons, henc hunit]; rfl)
    | hamDec => exact fetch_of_trailing_byte (by rw [hword, hunit, decode_hamDec_cons, hdec hunit]; rfl)

/-- A transaction whose input can be driven is its operation at the driven state. -/
theorem step_of_drive_eq_ok {s s₁ : State} {t : Transaction} {rest : List Transaction} {i : Instr}
    (hpending : s.pending = t :: rest) (hdecode : decode t.unit t.word = .ok (i, []))
    (hdrive : drive t.unit t.input { s with pending := rest } = .ok s₁) : step s = exec i s₁ := by
  rw [step_of_pending_eq_cons hpending, transact_of_drive_eq_ok (fetch_eq_ok.2 hdecode) hdrive]

/-- Driving no input leaves the state as it is. -/
theorem drive_none_of_buildRefusal_eq_none {u : HwUnit} {s : State} (h : buildRefusal s.params u = none) :
    drive u none s = .ok s := by
  simp only [drive, h]

/-- A transaction without an input is its operation, built or not: the operation refuses for the same build. -/
theorem step_of_input_eq_none {s : State} {t : Transaction} {rest : List Transaction} {i : Instr}
    (hpending : s.pending = t :: rest) (hdecode : decode t.unit t.word = .ok (i, [])) (hinput : t.input = none) :
    step s = exec i { s with pending := rest } := by
  cases hbuild : buildRefusal s.params t.unit with
  | none =>
    refine step_of_drive_eq_ok hpending hdecode ?_
    rw [hinput]
    exact drive_none_of_buildRefusal_eq_none hbuild
  | some r =>
    rw [step_of_buildRefusal hpending hdecode hbuild, eq_comm, exec_eq_refused, decode_unit hdecode]
    exact hbuild

/-- Settles O4. -/
theorem stepRunsDecodedTransaction : Obligations.StepRunsDecodedTransaction := by
  intro s t rest i hpending hdecode
  exact ⟨step_of_input_eq_none hpending hdecode, fun s' => step_of_drive_eq_ok hpending hdecode⟩

/-- A table word read as an operation decodes, on the module it is read for, with nothing left over. -/
theorem decode_tableBytes {nbits w : Nat} {i : Instr} (h : decodeTableWord nbits w = some i) :
    decode tableUnit (tableBytes nbits w) = .ok (i, []) := by
  unfold decodeTableWord at h
  split at h
  next i' hdecode =>
    cases h
    exact hdecode
  next => cases h

/-- Settles O5: the placed word is the next transaction, and drives no input. -/
theorem placedTableWordRunsNext : Obligations.PlacedTableWordRunsNext := by
  intro s nbits w i h
  exact step_of_input_eq_none (s := s.withFetchWord nbits w) (t := tableTransaction nbits w) (rest := s.pending)
    rfl (decode_tableBytes h) rfl

end Sys2Proof.Machine
end

section
/-! PROOFS. 10_state.md R29: the state after reset. -/

namespace Sys2Proof.Machine

open Safety

theorem allBuilt_reset : AllBuilt State.reset.params := by
  have hn : 1 ≤ 11 := by decide
  have hle : 1 ≤ 15 := by decide
  exact ⟨hn, hn, hle⟩

/-- With every input at 0, every output of an evaluation is 0. -/
theorem settled_reset : Settled State.reset := by
  have henc : settledEnc (0 : BitVec 11) = State.reset.enc := congrArg (EncPorts.mk 0) (encodeWord_zero 11)
  have hdec : decodeWord (n := 11) 0 = State.reset.dec := rfl
  have hsynd : settledSynd (le := 15) 0 false = State.reset.synd := rfl
  refine ⟨?_, ?_, ?_⟩
  · rw [← henc]
    exact encOk_settledEnc (by decide) 0
  · rw [← hdec]
    exact decOk_decodeWord (by decide) 0
  · rw [← hsynd]
    exact syndOk_settledSynd 0 false

/-- Settles O54. -/
theorem resetIsSettledAndBuilt : Obligations.ResetIsSettledAndBuilt :=
  ⟨settled_reset, allBuilt_reset⟩

end Sys2Proof.Machine
end

section
/-! PROOFS. 40_parity_count.md R72, R73, R75: the ranges and bounds of PARITYCOUNT. -/

namespace Sys2Proof.Machine

open Safety

/-- 40_parity_count.md R70: the count passes the test and the count before it fails. -/
theorem parityCount_eq_iff {n r : Nat} (hn : 1 ≤ n) (hr : 1 ≤ r) :
    parityCount n = r ↔ r ∈ sufficientParityCounts n ∧ r - 1 ∉ sufficientParityCounts n := by
  obtain ⟨hpass, hmin⟩ := parityCount_isLeast hn
  constructor
  · rintro rfl
    refine ⟨hpass, fun hbefore => ?_⟩
    have := hmin hbefore
    omega
  · rintro ⟨hr_pass, hr_fail⟩
    refine le_antisymm (hmin hr_pass) ?_
    by_contra hlt
    exact hr_fail (sufficientParityCounts_upward hpass (by omega))

/-- 40_parity_count.md R72, the range of the payload width. -/
theorem parityCount_eq_iff_payload_range {n r : Nat} (hn : 1 ≤ n) (hr : 2 ≤ r) :
    parityCount n = r ↔ 2 ^ (r - 1) - r + 1 ≤ n ∧ n ≤ 2 ^ r - r - 1 := by
  obtain ⟨k, rfl⟩ : ∃ k, r = k + 1 := ⟨r - 1, by omega⟩
  have hk : k < 2 ^ k := Nat.lt_two_pow_self
  rw [parityCount_eq_iff hn (by omega), mem_sufficientParityCounts, mem_sufficientParityCounts,
    Nat.add_sub_cancel, Nat.pow_succ]
  omega

/-- 40_parity_count.md R72, the range of the codeword width. -/
theorem parityCount_eq_iff_codeword_range {n r : Nat} (hn : 1 ≤ n) (hr : 2 ≤ r) :
    parityCount n = r ↔ 2 ^ (r - 1) + 1 ≤ codeLen n ∧ codeLen n ≤ 2 ^ r - 1 := by
  have hpos : 0 < 2 ^ r := Nat.two_pow_pos r
  constructor
  · rintro rfl
    exact ⟨two_pow_lt_codeLen hn, Nat.le_sub_one_of_lt (codeLen_lt_two_pow hn)⟩
  · rintro ⟨hlow, hhigh⟩
    have hlog : Nat.log2 (codeLen n) = r - 1 := by
      have hwidth : codeLen n ≠ 0 := Nat.ne_zero_of_lt hlow
      rw [Nat.log2_eq_iff hwidth, Nat.sub_add_cancel (by omega)]
      omega
    have hone := one_le_parityCount hn
    rw [log2_codeLen hn] at hlog
    omega

/-- 40_parity_count.md R75: one parity bit is never enough. -/
theorem two_le_parityCount {n : Nat} (hn : 1 ≤ n) : 2 ≤ parityCount n := by
  obtain ⟨hpass, -⟩ := parityCount_isLeast hn
  have hone := one_le_parityCount hn
  by_contra hlt
  rw [mem_sufficientParityCounts, show parityCount n = 1 by omega] at hpass
  omega

/-- Settles O10. -/
theorem parityCountRanges : Obligations.ParityCountRanges := by
  intro n hn
  have htwo := two_le_parityCount hn
  exact ⟨fun r => parityCount_eq_iff_payload_range hn, fun r => parityCount_eq_iff_codeword_range hn,
    by omega, by omega⟩

/-- 40_parity_count.md R74: the parity positions of a codeword are those of its R parity bits. -/
theorem two_pow_le_codeLen_iff {n j : Nat} (hn : 1 ≤ n) : 2 ^ j ≤ codeLen n ↔ j < parityCount n :=
  ⟨lt_parityCount_of_two_pow_le hn, fun hj => (lt_indexCount.1 (lt_indexCount_codeLen hn hj)).le⟩

theorem codeLen_ne_two_pow {n : Nat} (hn : 1 ≤ n) (j : Nat) : codeLen n ≠ 2 ^ j := by
  intro h
  have hpow := (isPow2_iff_exists_two_pow _).2 ⟨j, h⟩
  rw [isPow2_codeLen hn] at hpow
  cases hpow

theorem parityCount_eq_log2_codeLen {n : Nat} (hn : 1 ≤ n) : parityCount n = Nat.log2 (codeLen n) + 1 := by
  rw [log2_codeLen hn, Nat.sub_add_cancel (one_le_parityCount hn)]

/-- Settles O11. -/
theorem codewordWidthBounds : Obligations.CodewordWidthBounds := by
  intro n hn
  refine ⟨two_pow_lt_codeLen hn, codeLen_lt_two_pow hn, parityCount_eq_log2_codeLen hn, fun p => ⟨?_, ?_⟩,
    codeLen_ne_two_pow hn⟩
  · rintro ⟨hle, j, rfl⟩
    exact ⟨j, (two_pow_le_codeLen_iff hn).1 hle, rfl⟩
  · rintro ⟨j, hj, rfl⟩
    exact ⟨(two_pow_le_codeLen_iff hn).2 hj, j, rfl⟩

/-- 40_parity_count.md R75: one more parity bit is enough for one more payload bit. -/
theorem parityCount_succ_le {n : Nat} (hn : 1 ≤ n) : parityCount (n + 1) ≤ parityCount n + 1 := by
  obtain ⟨hpass, -⟩ := parityCount_isLeast hn
  refine (parityCount_isLeast (Nat.succ_pos n)).2 ?_
  rw [mem_sufficientParityCounts] at hpass ⊢
  rw [Nat.pow_succ]
  omega

/-- Settles O12. -/
theorem parityCountMonotone : Obligations.ParityCountMonotone := by
  intro n hn
  exact ⟨parityCount_mono hn (Nat.le_succ n), parityCount_succ_le hn, two_le_parityCount hn⟩

/-- 30_encoding.md R58: the model's test is the definition of a valid length. -/
theorem validLength_eq_true_iff {l : Nat} : validLength l = true ↔ ValidLength l := by
  refine ⟨validLength_of_test, ?_⟩
  rintro ⟨n, hn, rfl⟩
  exact validLength_codeLen hn

/-- 30_encoding.md R58: the model's test is the closed form. -/
theorem validLength_eq_true_iff_ne_two_pow {l : Nat} : validLength l = true ↔ 3 ≤ l ∧ ∀ j, l ≠ 2 ^ j := by
  rw [validLength, Bool.and_eq_true, decide_eq_true_eq, Bool.not_eq_true', ← Bool.not_eq_true,
    isPow2_iff_exists_two_pow, not_exists]

/-- Settles O13: the definition and the closed form are both the model's test, and a codeword width gives its payload
width back. -/
theorem validLengthsAreNonPowersOfTwo : Obligations.ValidLengthsAreNonPowersOfTwo := by
  intro l
  refine ⟨validLength_eq_true_iff.symm.trans validLength_eq_true_iff_ne_two_pow, validLength_eq_true_iff, ?_⟩
  rintro n hn rfl
  exact ⟨(payloadOfLength_codeLen hn).symm, parityCount_eq_log2_codeLen hn⟩

/-- 30_encoding.md R51: the data positions of a codeword, in order. -/
theorem dataPositions_codeLen {n : Nat} (hn : 1 ≤ n) : dataPositions (codeLen n) = (List.range n).map dpos := by
  have hinverse : ∀ p ∈ dataPositions (codeLen n), p = dpos (didx p) := by
    intro p hp
    obtain ⟨⟨hpos, -⟩, hdata⟩ := mem_dataPositions.1 hp
    exact (dpos_didx hpos hdata).symm
  calc dataPositions (codeLen n)
    _ = (dataPositions (codeLen n)).map fun p => dpos (didx p) := by
      rw [← List.map_congr_left hinverse, List.map_id']
    _ = ((dataPositions (codeLen n)).map didx).map dpos := by rw [List.map_map]; rfl
    _ = (List.range n).map dpos := by rw [map_didx_dataPositions, payloadOfLength_codeLen hn]

/-- Settles O15. -/
theorem placementEnumeratesDataPositions : Obligations.PlacementEnumeratesDataPositions := by
  refine ⟨fun i => ⟨?_, isPow2_dpos i, didx_dpos i, ?_⟩, fun p hp hdata => ?_,
    fun n hn => ⟨fun i => dpos_le_codeLen, ?_⟩⟩
  · exact three_le_of_not_isPow2 (one_le_dpos i) (isPow2_dpos i)
  · exact codeLen_lt_codeLen (Nat.succ_pos i) (Nat.lt_succ_self _)
  · exact dpos_didx (by omega) hdata
  · exact dataPositions_codeLen hn

end Sys2Proof.Machine
end

section
/-! PROOFS. 41_syndrome_engine.md R81, R86, R88: the indices visited, and the block sets with their sizes. -/

namespace Sys2Proof.Machine

/-- Settles O17. -/
theorem blockSequenceIsBlockSet : Obligations.BlockSequenceIsBlockSet := by
  intro l arr j
  refine ⟨blockSeq_eq_map_blk arr j, fun h => ?_, foldIndex_eq_blkParity arr j⟩
  rw [blk_eq_cons h, List.head?_cons]

/-- 40_parity_count.md R74: the engine of a codeword visits its parity bits, and no other index. -/
theorem indexCount_codeLen {n : Nat} (hn : 1 ≤ n) : indexCount (codeLen n) = parityCount n := by
  refine eq_of_forall_lt_iff fun j => ⟨fun hj => ?_, lt_indexCount_codeLen hn⟩
  exact lt_parityCount_of_two_pow_le hn (lt_indexCount.1 hj).le

/-- Settles O18. -/
theorem engineVisitsIndicesBelowLength : Obligations.EngineVisitsIndicesBelowLength :=
  ⟨fun _ _ => lt_indexCount, indexCount_one, fun l _ => indexCount_eq_clog l, fun _ => indexCount_codeLen⟩

/-- A block set grows by the new position when it has bit `j`. -/
theorem length_blk_succ (l j : Nat) : (blk (l + 1) j).length = (blk l j).length + (posBit (l + 1) j).toNat := by
  rw [blk, positions_succ, List.filter_append, List.length_append, ← blk]
  cases h : posBit (l + 1) j <;> simp [h]

/-- 41_syndrome_engine.md R88: the formula on `q` whole periods of bit `j` and `r` positions more. -/
theorem blkCount_mul_add {j q r : Nat} (hr : r < 2 ^ (j + 1)) :
    blkCount (2 ^ (j + 1) * q + r) j = q * 2 ^ j + (r + 1 - 2 ^ j) := by
  rw [blkCount, Nat.mul_add_div (Nat.two_pow_pos _), Nat.div_eq_of_lt hr, Nat.add_zero, Nat.mul_add_mod,
    Nat.mod_eq_of_lt hr]

/-- The formula grows as the block set does: in the second half of each period of bit `j`, by one. -/
theorem blkCount_succ (l j : Nat) : blkCount (l + 1) j = blkCount l j + (posBit (l + 1) j).toNat := by
  obtain ⟨q, r, hr, rfl⟩ : ∃ q r, r < 2 ^ (j + 1) ∧ l = 2 ^ (j + 1) * q + r :=
    ⟨l / 2 ^ (j + 1), l % 2 ^ (j + 1), Nat.mod_lt _ (Nat.two_pow_pos _), (Nat.div_add_mod _ _).symm⟩
  have hperiod : 2 ^ (j + 1) = 2 ^ j + 2 ^ j := by rw [Nat.pow_succ, Nat.mul_two]
  have hpos : 0 < 2 ^ j := Nat.two_pow_pos j
  rw [blkCount_mul_add hr, Nat.add_assoc]
  obtain hnext | hend : r + 1 < 2 ^ (j + 1) ∨ r + 1 = 2 ^ (j + 1) := by omega
  · have hrun : 2 ^ (j + 1) * q = 2 ^ j * (2 * q) := by rw [Nat.pow_succ, Nat.mul_assoc]
    rw [blkCount_mul_add hnext, hrun]
    obtain hlow | hhigh := Nat.lt_or_ge (r + 1) (2 ^ j)
    · rw [posBit_of_mem_run (m := 2 * q) (by omega) (by omega), decide_eq_false (by omega), Bool.toNat_false]
      omega
    · have hsecond : 2 ^ j * (2 * q + 1) = 2 ^ j * (2 * q) + 2 ^ j := Nat.mul_succ _ _
      rw [posBit_of_mem_run (m := 2 * q + 1) (by omega) (by omega), decide_eq_true (by omega), Bool.toNat_true]
      omega
  · have hwhole : 2 ^ (j + 1) * q + (r + 1) = 2 ^ (j + 1) * (q + 1) + 0 := by rw [hend]; rfl
    have hrun : 2 ^ (j + 1) * (q + 1) = 2 ^ j * (2 * (q + 1)) := by rw [Nat.pow_succ, Nat.mul_assoc]
    rw [hwhole, blkCount_mul_add (Nat.two_pow_pos _), Nat.add_zero, hrun,
      posBit_of_mem_run (m := 2 * (q + 1)) (by omega) (by omega), decide_eq_false (by omega), Bool.toNat_false,
      Nat.succ_mul]
    omega

theorem length_blk (l j : Nat) : (blk l j).length = blkCount l j := by
  induction l with
  | zero =>
    have hpos : 0 < 2 ^ j := Nat.two_pow_pos j
    simp [blk, positions, blkCount]
    omega
  | succ l ih => rw [length_blk_succ, blkCount_succ, ih]

/-- 41_syndrome_engine.md R88: the model's formula is the rule's, whose subtraction does not stop at 0. -/
theorem cast_blkCount (l j : Nat) : (blkCount l j : Int) =
    (l : Int) / 2 ^ (j + 1) * 2 ^ j + max 0 ((l : Int) % 2 ^ (j + 1) - 2 ^ j + 1) := by
  have hsub : ∀ x m : Nat, ((x + 1 - m : Nat) : Int) = max 0 ((x : Int) - m + 1) := by omega
  rw [blkCount, Nat.cast_add, hsub]
  push_cast
  rfl

/-- Settles O23, by induction on the number of positions. -/
theorem blockSetSizeFormula : Obligations.BlockSetSizeFormula := by
  intro l j
  rw [length_blk]
  exact ⟨cast_blkCount l j, rfl⟩

end Sys2Proof.Machine
end

section
/-! PROOFS. 41_syndrome_engine.md R87, 90_conflicts.md C2: the order of the write-backs does not show, since any two
of them commute. -/

namespace Sys2Proof.Machine

theorem setBit_of_le {l k : Nat} (v : BitVec l) (h : l ≤ k) (b : Bit) : setBit v k b = v := by
  apply BitVec.eq_of_getLsbD_eq
  intro i _
  rw [getLsbD_setBit, if_neg (by omega)]

theorem setBit_comm {l k m : Nat} (v : BitVec l) (h : k ≠ m) (b c : Bit) :
    setBit (setBit v k b) m c = setBit (setBit v m c) k b := by
  apply BitVec.eq_of_getLsbD_eq
  intro i _
  simp only [getLsbD_setBit]
  obtain rfl | him := eq_or_ne i m
  · simp [h.symm]
  · simp [him]

/-- A parity position is in the block set of its own index alone, so a write there leaves the other folds. -/
theorem foldIndex_setBit_of_ne {l i j : Nat} (w : BitVec l) (h : i ≠ j) (b : Bit) :
    foldIndex (setBit w (2 ^ i - 1) b) j = foldIndex w j := by
  have hone : 1 ≤ 2 ^ i := Nat.one_le_two_pow
  rw [foldIndex_eq_blkParity, foldIndex_eq_blkParity]
  obtain hin | hout := Nat.lt_or_ge l (2 ^ i)
  · rw [setBit_of_le w (by omega)]
  · rw [blkParity_setBit w ⟨hone, hout⟩, posBit_eq_testBit, Nat.testBit_two_pow, decide_eq_false h,
      Bool.false_and, Bool.xor_false]

theorem two_pow_sub_one_ne {i j : Nat} (h : i ≠ j) : 2 ^ i - 1 ≠ 2 ^ j - 1 := by
  have hi : 1 ≤ 2 ^ i := Nat.one_le_two_pow
  have hj : 1 ≤ 2 ^ j := Nat.one_le_two_pow
  have hpow : 2 ^ i ≠ 2 ^ j := fun heq => h (Nat.pow_right_injective le_rfl heq)
  omega

theorem writeBack_comm {l : Nat} (out : SyndOut l) (i j : Nat) :
    writeBack (writeBack out i) j = writeBack (writeBack out j) i := by
  obtain rfl | h := eq_or_ne i j
  · rfl
  · simp only [writeBack, foldIndex_setBit_of_ne _ h, foldIndex_setBit_of_ne _ h.symm]
    rw [setBit_comm _ h, setBit_comm _ (two_pow_sub_one_ne h)]

/-- Settles O22: a fold by commuting turns is the same in every order. -/
theorem writeBackOrderUnobservable : Obligations.WriteBackOrderUnobservable := by
  intro l a js hperm
  have hcomm : RightCommutative (writeBack (l := l)) := ⟨writeBack_comm⟩
  exact hperm.foldl_eq _

end Sys2Proof.Machine
end

section
/-! PROOFS. 41_syndrome_engine.md R88, 70_reset_and_hazards.md R155, R156: the balanced trees. -/

namespace Sys2Proof.Machine

/-- What 41_syndrome_engine.md R88 says of the tree over the positions `ps` of the array `a`. -/
def IsXorTreeOver {l : Nat} (a : BitVec l) (ps : List Nat) (t : XorTree) : Prop :=
  treeValue a t = xorOver (fun p => a.getLsbD (p - 1)) ps ∧ treeGates t + 1 = ps.length ∧
    treeDepth t = Nat.clog 2 ps.length

theorem isXorTreeOver_input {l : Nat} (a : BitVec l) (p : Nat) : IsXorTreeOver a [p] (.input p) := by
  simp [IsXorTreeOver, treeValue, treeGates, treeDepth]

/-- A gate joins the trees of two lists of which the second is as long as the first, or longer by one. -/
theorem isXorTreeOver_gate {l : Nat} {a : BitVec l} {ps qs : List Nat} {x y : XorTree} (hx : IsXorTreeOver a ps x)
    (hy : IsXorTreeOver a qs y) (hlow : ps.length ≤ qs.length) (hhigh : qs.length ≤ ps.length + 1) :
    IsXorTreeOver a (ps ++ qs) (.gate x y) := by
  obtain ⟨hx_value, hx_gates, hx_depth⟩ := hx
  obtain ⟨hy_value, hy_gates, hy_depth⟩ := hy
  have hhalf : (ps.length + qs.length + 2 - 1) / 2 = qs.length := by omega
  have hclog : Nat.clog 2 (ps.length + qs.length) = Nat.clog 2 qs.length + 1 := by
    rw [Nat.clog_of_two_le Nat.one_lt_two (by omega), hhalf]
  refine ⟨?value, ?gates, ?depth⟩
  case value => rw [treeValue, hx_value, hy_value, xorOver_append]
  case gates =>
    rw [treeGates, List.length_append]
    omega
  case depth =>
    rw [treeDepth, hx_depth, hy_depth, Nat.max_eq_right (Nat.clog_mono_right 2 hlow), List.length_append, hclog]

/-- One level of the reference tree: the gate of the trees of the two halves. -/
theorem balancedFrom_succ {levels : Nat} {ps : List Nat} {x y : XorTree} (hlen : 2 ≤ ps.length)
    (hx : balancedFrom levels (ps.take (ps.length / 2)) = some x)
    (hy : balancedFrom levels (ps.drop (ps.length / 2)) = some y) :
    balancedFrom (levels + 1) ps = some (.gate x y) := by
  match ps, hlen with
  | p :: q :: ps, _ => simp only [balancedFrom, hx, hy]

/-- Each level halves the list, so that as many levels as positions are enough. -/
theorem exists_balancedFrom {l : Nat} (a : BitVec l) {levels : Nat} {ps : List Nat} (hne : 1 ≤ ps.length)
    (hlevels : ps.length ≤ levels) : ∃ t, balancedFrom levels ps = some t ∧ IsXorTreeOver a ps t := by
  induction levels generalizing ps with
  | zero => omega
  | succ levels ih =>
    obtain hone | htwo : ps.length = 1 ∨ 2 ≤ ps.length := by omega
    · obtain ⟨p, rfl⟩ := List.length_eq_one_iff.1 hone
      exact ⟨.input p, rfl, isXorTreeOver_input a p⟩
    · have htake : (ps.take (ps.length / 2)).length = ps.length / 2 := by
        rw [List.length_take]
        omega
      have hdrop : (ps.drop (ps.length / 2)).length = ps.length - ps.length / 2 := List.length_drop
      obtain ⟨x, hx, hx_tree⟩ := ih (ps := ps.take (ps.length / 2)) (by omega) (by omega)
      obtain ⟨y, hy, hy_tree⟩ := ih (ps := ps.drop (ps.length / 2)) (by omega) (by omega)
      have hgate := isXorTreeOver_gate hx_tree hy_tree (by omega) (by omega)
      rw [List.take_append_drop] at hgate
      exact ⟨.gate x y, balancedFrom_succ htwo hx hy, hgate⟩

theorem exists_balancedTree {l : Nat} (a : BitVec l) {ps : List Nat} (hne : 1 ≤ ps.length) :
    ∃ t, balancedTree ps = some t ∧ IsXorTreeOver a ps t :=
  exists_balancedFrom a hne le_rfl

/-- Settles O24: a block set that holds its parity position is not empty. -/
theorem balancedTreeComputesSyndromeBit : Obligations.BalancedTreeComputesSyndromeBit := by
  intro l a j hj
  have hne : 1 ≤ (blk l j).length := by simp [blk_eq_cons hj]
  obtain ⟨t, htree, hvalue, hgates, hdepth⟩ := exists_balancedTree a hne
  exact ⟨t, htree, hvalue.trans (foldIndex_eq_blkParity a j).symm, hgates, hdepth⟩

/-- 70_reset_and_hazards.md R155: without the placeholder a block set has one position less. -/
theorem length_blk_filter_ne {l j : Nat} (h : 2 ^ j ≤ l) :
    ((blk l j).filter fun p => p ≠ 2 ^ j).length + 1 = (blk l j).length := by
  rw [blk_filter_ne h, blk_eq_cons h, List.length_cons]

/-- Every parity bit of a codeword checks a data position: 3 for the first, and the one after its own for the rest. -/
theorem exists_mem_blk_filter_ne {n j : Nat} (hn : 1 ≤ n) (hj : j < parityCount n) :
    ∃ p, p ∈ (blk (codeLen n) j).filter fun p => p ≠ 2 ^ j := by
  have hlt : 2 ^ j < codeLen n := lt_indexCount.1 (lt_indexCount_codeLen hn hj)
  obtain rfl | hj := Nat.eq_zero_or_pos j
  · have hthree : 3 ≤ codeLen n := three_le_of_not_isPow2 (Nat.le_add_right_of_le hn) (isPow2_codeLen hn)
    exact ⟨3, List.mem_filter.2 ⟨mem_blk.2 ⟨⟨by decide, hthree⟩, by decide⟩, by decide⟩⟩
  · have hpow : 1 < 2 ^ j := Nat.one_lt_two_pow (Nat.ne_of_gt hj)
    have hbit : posBit (2 ^ j + 1) j = true := posBit_of_mem_run (m := 1) (by omega) (by omega)
    exact ⟨2 ^ j + 1, List.mem_filter.2 ⟨mem_blk.2 ⟨⟨by omega, hlt⟩, hbit⟩, by simp⟩⟩

/-- Settles O25: the tree reads the payload bits of the parity equation. -/
theorem encoderTreeComputesParityBit : Obligations.EncoderTreeComputesParityBit := by
  intro n d j hn hj
  obtain ⟨p, hp⟩ := exists_mem_blk_filter_ne hn hj
  obtain ⟨t, htree, hvalue, hgates, hdepth⟩ := exists_balancedTree (place d) (List.length_pos_of_mem hp)
  have hlen := length_blk_filter_ne ((two_pow_le_codeLen_iff hn).2 hj)
  have hplaced : ∀ q ∈ (blk (codeLen n) j).filter fun p => p ≠ 2 ^ j,
      (place d).getLsbD (q - 1) = d.getLsbD (didx q) := by
    intro q hq
    obtain ⟨hrange, hdata⟩ := mem_dataPositions.1 (mem_blk_filter_ne hq)
    rw [getLsbD_place_position d hrange, hdata, if_neg Bool.false_ne_true]
  refine ⟨t, htree, ?value, ?gates, ?depth⟩
  case value => rw [hvalue, xorOver_congr hplaced, getLsbD_encodeWord_parity hn d hj]
  case gates => omega
  case depth => rw [hdepth, ← hlen, Nat.add_sub_cancel]

end Sys2Proof.Machine
end

section
/-! PROOFS. 41_syndrome_engine.md R90, 42_encoder.md R103, R106: the engine and the encoder are linear, and ENCODE is
injective. -/

namespace Sys2Proof.Machine

open Safety

/-- 41_syndrome_engine.md R90: the parallel form is kept by XOR. -/
theorem syndOk_xor {le : Nat} {q q' : SyndPorts le} (h : SyndOk q) (h' : SyndOk q') (hmode : q.mode = q'.mode) :
    SyndOk { a := q.a ^^^ q'.a, mode := q.mode, s := q.s ^^^ q'.s, w := q.w ^^^ q'.w } := by
  obtain ⟨hs, hparity, hothers⟩ := h
  obtain ⟨hs', hparity', hothers'⟩ := h'
  refine ⟨?s, ?parity, ?others⟩
  case s =>
    intro j hj
    rw [BitVec.getLsbD_xor, hs j hj, hs' j hj, blkParity_xor]
  case parity =>
    intro j hj
    rw [BitVec.getLsbD_xor, hparity j hj, hparity' j hj, ← hmode, BitVec.getLsbD_xor, BitVec.getLsbD_xor]
    split <;> rfl
  case others =>
    intro k hk hne
    rw [BitVec.getLsbD_xor, BitVec.getLsbD_xor, hothers k hk hne, hothers' k hk hne]

theorem settledSynd_xor {le : Nat} (a b : BitVec le) (mode : Bit) :
    settledSynd (a ^^^ b) mode =
      { a := a ^^^ b, mode := mode, s := (syndEngine mode a).s ^^^ (syndEngine mode b).s,
        w := (syndEngine mode a).w ^^^ (syndEngine mode b).w } := by
  have hxor := syndOk_xor (syndOk_settledSynd a mode) (syndOk_settledSynd b mode) rfl
  exact syndOk_unique (syndOk_settledSynd (a ^^^ b) mode) hxor rfl rfl

theorem syndEngine_xor_s {l : Nat} (mode : Bit) (a b : BitVec l) :
    (syndEngine mode (a ^^^ b)).s = (syndEngine mode a).s ^^^ (syndEngine mode b).s :=
  congrArg SyndPorts.s (settledSynd_xor a b mode)

theorem syndEngine_xor_w {l : Nat} (mode : Bit) (a b : BitVec l) :
    (syndEngine mode (a ^^^ b)).w = (syndEngine mode a).w ^^^ (syndEngine mode b).w :=
  congrArg SyndPorts.w (settledSynd_xor a b mode)

theorem syndEngine_zero_s (l : Nat) (mode : Bit) : (syndEngine mode (0 : BitVec l)).s = 0 := by
  have h := syndEngine_xor_s mode (0 : BitVec l) 0
  rwa [BitVec.xor_self, BitVec.xor_self] at h

/-- 41_syndrome_engine.md R90: the one position p gives the bits of the number p. -/
theorem syndEngine_flipMask_s {l p : Nat} (mode : Bit) (hp : 1 ≤ p ∧ p ≤ l) :
    (syndEngine mode (flipMask l p)).s = BitVec.ofNat (indexCount l) (p % 2 ^ indexCount l) := by
  apply BitVec.eq_of_getLsbD_eq
  intro j hj
  rw [getLsbD_syndEngine_s _ _ hj, blkParity_flipMask hp, posBit_eq_testBit, BitVec.getLsbD_ofNat,
    Nat.testBit_mod_two_pow, decide_eq_true hj, Bool.true_and, Bool.true_and]

/-- Settles O26. -/
theorem engineLinear : Obligations.EngineLinear := by
  intro l mode a b
  refine ⟨syndEngine_xor_s mode a b, syndEngine_xor_w mode a b, syndEngine_zero_s l mode, fun p hlow hhigh => ?_⟩
  rw [channelFlipPos, syndEngine_xor_s, syndEngine_flipMask_s mode ⟨hlow, hhigh⟩]

theorem place_xor {n : Nat} (d e : BitVec n) : place (d ^^^ e) = place d ^^^ place e := by
  apply BitVec.eq_of_getLsbD_eq
  intro k hk
  rw [BitVec.getLsbD_xor, getLsbD_place, getLsbD_place, getLsbD_place, if_pos hk, if_pos hk, if_pos hk]
  cases isPow2 (k + 1) <;> simp

theorem encodeWord_xor {n : Nat} (d e : BitVec n) : encodeWord (d ^^^ e) = encodeWord d ^^^ encodeWord e := by
  rw [encodeWord, place_xor, syndEngine_xor_w]
  rfl

/-- 43_decoder.md R117: the payload is read back from its codeword. -/
@[simp] theorem extract_encodeWord {n : Nat} (d : BitVec n) : extract (encodeWord d) = d := by
  apply BitVec.eq_of_getLsbD_eq
  intro i hi
  rw [getLsbD_extract, decide_eq_true hi, Bool.true_and, getLsbD_encodeWord_data d (dpos_mem_dataPositions hi),
    didx_dpos]

theorem encodeWord_injective (n : Nat) : Function.Injective (encodeWord (n := n)) :=
  Function.LeftInverse.injective extract_encodeWord

/-- Settles O31. -/
theorem encodeInjectiveAndLinear : Obligations.EncodeInjectiveAndLinear := by
  intro n d e _
  exact ⟨fun h => encodeWord_injective n h, encodeWord_xor d e⟩

/-- 42_encoder.md R103: the payload bits of the parity equation of index j, in the table's order. -/
def parityTerms (n j : Nat) : List Nat :=
  ((blk (codeLen n) j).filter fun p => p ≠ 2 ^ j).map didx

theorem xorOver_map (f : Nat → Bit) (g : Nat → Nat) (ps : List Nat) :
    xorOver f (ps.map g) = xorOver (fun p => f (g p)) ps := by
  induction ps with
  | nil => rfl
  | cons p ps ih => rw [List.map_cons, xorOver_cons, xorOver_cons, ih]

theorem getLsbD_encodeWord_parityTerms {n j : Nat} (hn : 1 ≤ n) (d : BitVec n) (hj : j < parityCount n) :
    (encodeWord d).getLsbD (2 ^ j - 1) = xorOver d.getLsbD (parityTerms n j) := by
  rw [getLsbD_encodeWord_parity hn d hj, parityTerms, xorOver_map]

/-- The block set of a shorter word is the part of the longer one's inside the word. -/
theorem blk_eq_filter_le {l m : Nat} (h : l ≤ m) (j : Nat) : blk l j = (blk m j).filter fun p => p ≤ l := by
  have hpositions : positions l = (positions m).filter fun p => p ≤ l := by
    have hIco := List.Ico.filter_lt 1 (m + 1) (l + 1)
    simp only [Nat.lt_succ_iff, Nat.min_eq_right (Nat.succ_le_succ h)] at hIco
    exact hIco.symm
  rw [blk, blk, hpositions, List.filter_filter, List.filter_filter]
  simp only [Bool.and_comm]

/-- 42_encoder.md R103: "a smaller N keeps the terms below N". -/
theorem parityTerms_eq_filter {m n : Nat} (hm : 1 ≤ m) (h : m ≤ n) (j : Nat) :
    parityTerms m j = (parityTerms n j).filter fun i => i < m := by
  have hterm : ∀ p ∈ (blk (codeLen n) j).filter (fun p => p ≠ 2 ^ j),
      decide (p ≤ codeLen m) = decide (didx p < m) := by
    intro p hp
    obtain ⟨⟨hpos, -⟩, hdata⟩ := mem_dataPositions.1 (mem_blk_filter_ne hp)
    rw [decide_eq_decide, ← dpos_le_codeLen, dpos_didx hpos hdata]
  rw [parityTerms, parityTerms, List.filter_map, blk_eq_filter_le ((codeLen_le_codeLen hm).2 h),
    List.filter_comm, List.filter_congr hterm]
  rfl

/-- 42_encoder.md R103: the table is that of N = 26. -/
theorem map_parityTerms_twentySix : (List.range 5).map (parityTerms 26) = parityRows := rfl

theorem parityRows_getD {j : Nat} (hj : j < 5) : parityRows.getD j [] = parityTerms 26 j := by
  rw [← map_parityTerms_twentySix, List.getD_eq_getElem?_getD, List.getElem?_map, List.getElem?_range hj]
  rfl

/-- Settles O29: the equations for N are those for 26, cut at N. -/
theorem parityEquationsTable : Obligations.ParityEquationsTable := by
  intro s hn hmax
  refine ⟨encodeWord s.enc.d, exec_encode hn, fun j hj => ?_⟩
  have hrow : j < 5 :=
    calc j
      _ < parityCount s.params.n := hj
      _ ≤ parityCount 26 := parityCount_mono hn hmax
      _ = 5 := by decide
  rw [getLsbD_encodeWord_parityTerms hn _ hj, parityTerms_eq_filter hn hmax, parityRows_getD hrow]

end Sys2Proof.Machine
end

section
/-! PROOFS. 43_decoder.md R118, R119: the syndrome of a word with flipped positions, and the outputs for each class of
its value S. -/

namespace Sys2Proof.Machine

section Flips

variable {n : Nat} (rx : BitVec (codeLen n))

/-- 43_decoder.md R119: a flipped position is XORed as a number onto S. -/
theorem toNat_syndromeOf_channelFlipPos (hn : 1 ≤ n) {p : Nat} (hp : 1 ≤ p ∧ p ≤ codeLen n) :
    (syndromeOf (channelFlipPos rx p)).toNat = (syndromeOf rx).toNat ^^^ p := by
  have hlt : p < 2 ^ parityCount n := lt_of_le_of_lt hp.2 (codeLen_lt_two_pow hn)
  have hxor : syndromeOf (channelFlipPos rx p) = syndromeOf rx ^^^ BitVec.ofNat _ p := by
    apply BitVec.eq_of_getLsbD_eq
    intro j hj
    rw [getLsbD_syndromeOf _ hn hj, blkParity_channelFlipPos rx hp, posBit_eq_testBit, BitVec.getLsbD_xor,
      getLsbD_syndromeOf rx hn hj, BitVec.getLsbD_ofNat, decide_eq_true hj, Bool.true_and]
  rw [hxor, BitVec.toNat_xor, BitVec.toNat_ofNat, Nat.mod_eq_of_lt hlt]

theorem toNat_syndromeOf_foldl_channelFlipPos (hn : 1 ≤ n) {ps : List Nat}
    (hps : ∀ p ∈ ps, 1 ≤ p ∧ p ≤ codeLen n) :
    (syndromeOf (ps.foldl channelFlipPos rx)).toNat = ps.foldl (fun x p => x ^^^ p) (syndromeOf rx).toNat := by
  induction ps generalizing rx with
  | nil => rfl
  | cons p ps ih =>
    obtain ⟨hp, hps⟩ := List.forall_mem_cons.1 hps
    rw [List.foldl_cons, List.foldl_cons, ih _ hps, toNat_syndromeOf_channelFlipPos rx hn hp]

/-- 43_decoder.md R118: the syndrome of a codeword is 0. -/
theorem toNat_syndromeOf_encodeWord (hn : 1 ≤ n) (d : BitVec n) : (syndromeOf (encodeWord d)).toNat = 0 :=
  (toNat_syndromeOf_eq_zero_iff _ hn).2 fun _ hj => blkParity_encodeWord d (lt_indexCount_codeLen hn hj)

/-! ### The three classes of S (30_encoding.md R59) -/

theorem decodeWord_of_syndrome_eq_zero (hn : 1 ≤ n) (hS : (syndromeOf rx).toNat = 0) :
    (decodeWord rx).err = false ∧ (decodeWord rx).uncorr = false ∧ (decodeWord rx).corr = rx ∧
      (decodeWord rx).epos.toNat = 0 := by
  refine ⟨?_, ?_, decodeWord_corr_of_outside rx (.inl hS), ?_⟩
  · rw [decodeWord_err, hS]
    rfl
  · rw [decodeWord_uncorr, hS]
    rfl
  · rw [toNat_decodeWord_epos rx hn, hS]
    rfl

theorem decodeWord_of_syndrome_in_word (hn : 1 ≤ n) (hlow : 1 ≤ (syndromeOf rx).toNat)
    (hhigh : (syndromeOf rx).toNat ≤ codeLen n) :
    (decodeWord rx).err = true ∧ (decodeWord rx).uncorr = false ∧
      (decodeWord rx).corr = channelFlipPos rx (syndromeOf rx).toNat ∧
      (decodeWord rx).epos.toNat = codeLen n - (syndromeOf rx).toNat + 1 := by
  refine ⟨(decodeWord_err_eq_true rx).2 (Nat.ne_zero_of_lt hlow), ?_, rfl, ?_⟩
  · rw [Bool.eq_false_iff, Ne, decodeWord_uncorr_eq_true]
    exact Nat.not_lt.2 hhigh
  · rw [toNat_decodeWord_epos rx hn, errorPosition, if_pos ⟨hlow, hhigh⟩, forwardPos]
    omega

theorem decodeWord_of_syndrome_beyond_word (hn : 1 ≤ n) (hS : codeLen n < (syndromeOf rx).toNat) :
    (decodeWord rx).err = true ∧ (decodeWord rx).uncorr = true ∧ (decodeWord rx).corr = rx ∧
      (decodeWord rx).epos.toNat = 0 := by
  refine ⟨(decodeWord_err_eq_true rx).2 (Nat.ne_zero_of_lt hS), (decodeWord_uncorr_eq_true rx).2 hS,
    decodeWord_corr_of_outside rx (.inr hS), ?_⟩
  rw [toNat_decodeWord_epos rx hn, errorPosition, if_neg (by omega)]

end Flips

/-- Settles O40: S starts at 0 on the codeword. -/
theorem syndromeOfErrorSet : Obligations.SyndromeOfErrorSet := by
  intro n d ps hn hps
  rw [decodeWord_syn, toNat_syndromeOf_foldl_channelFlipPos _ hn hps, toNat_syndromeOf_encodeWord hn]

end Sys2Proof.Machine
end

section
/-! PROOFS. 30_encoding.md R59, R60: which syndromes and which codewords there are. -/

namespace Sys2Proof.Machine

/-- The word with 1 at each parity position and 0 at each data position. -/
def parityOnes (l : Nat) : BitVec l :=
  BitVec.ofFnLE fun k => isPow2 (k.val + 1)

theorem getLsbD_parityOnes_position {l p : Nat} (hp : 1 ≤ p ∧ p ≤ l) :
    (parityOnes l).getLsbD (p - 1) = isPow2 p := by
  have hlt : p - 1 < l := by omega
  rw [parityOnes, BitVec.getLsbD_ofFnLE, dif_pos hlt, Nat.sub_add_cancel hp.1]

/-- Its syndrome is the greatest value of the port. -/
theorem syndromeOf_parityOnes {n : Nat} (hn : 1 ≤ n) :
    syndromeOf (parityOnes (codeLen n)) = BitVec.allOnes (parityCount n) := by
  apply BitVec.eq_of_getLsbD_eq
  intro j hj
  have hrange : 1 ≤ 2 ^ j ∧ 2 ^ j ≤ codeLen n := ⟨Nat.one_le_two_pow, (two_pow_le_codeLen_iff hn).2 hj⟩
  have hdata : ∀ p ∈ dataPositions (codeLen n), (parityOnes (codeLen n)).getLsbD (p - 1) = false := by
    intro p hp
    obtain ⟨hp_range, hp_data⟩ := mem_dataPositions.1 hp
    rw [getLsbD_parityOnes_position hp_range, hp_data]
  rw [getLsbD_syndromeOf _ hn hj, blkParity_of_data_eq_zero hdata hrange.2, getLsbD_parityOnes_position hrange,
    (isPow2_iff_exists_two_pow _).2 ⟨j, rfl⟩, BitVec.getLsbD_allOnes, decide_eq_true hj]

/-- Settles O36: the greatest syndrome is `2^R - 1`, and only L below it leaves one that exceeds L. -/
theorem uncorrectableClassEmptyAtFullLength : Obligations.UncorrectableClassEmptyAtFullLength := by
  intro n hn
  have hwidth := codeLen_lt_two_pow hn
  constructor
  · rintro ⟨rx, hrx⟩
    have hbeyond := (decodeWord_uncorr_eq_true rx).1 hrx
    have hport := (syndromeOf rx).isLt
    omega
  · intro hne
    refine ⟨parityOnes (codeLen n), (decodeWord_uncorr_eq_true _).2 ?_⟩
    rw [syndromeOf_parityOnes hn, BitVec.toNat_allOnes]
    omega

/-- 30_encoding.md R60: as many codewords as payloads, since ENCODE is injective. -/
theorem card_codewords (n : Nat) :
    Nat.card { rx : BitVec (codeLen n) // ∃ d : BitVec n, rx = encodeWord d } = 2 ^ n := by
  have hrange : { rx | ∃ d : BitVec n, rx = encodeWord d } = Set.range (encodeWord (n := n)) := by
    ext rx
    simp [eq_comm]
  calc Nat.card { rx : BitVec (codeLen n) // ∃ d : BitVec n, rx = encodeWord d }
    _ = Nat.card (Set.range (encodeWord (n := n))) := by rw [← hrange]; rfl
    _ = Nat.card (BitVec n) := Nat.card_range_of_injective (encodeWord_injective n)
    _ = 2 ^ n := by rw [Nat.card_congr (BitVec.equivFin (m := n)).toEquiv, Nat.card_fin]

/-- Settles O37. -/
theorem codewordsAreZeroSyndromeWords : Obligations.CodewordsAreZeroSyndromeWords := by
  intro n hn
  refine ⟨fun rx => ?_, card_codewords n⟩
  rw [exists_eq_encodeWord_iff hn, ← toNat_syndromeOf_eq_zero_iff rx hn, decodeWord_syn]
  exact BitVec.toNat_inj.symm

end Sys2Proof.Machine
end

section
/-! PROOFS. 43_decoder.md R118, R119: ENCODE, the channel, DECODE. -/

namespace Sys2Proof.Machine

open Safety

theorem channelFlipPos_channelFlipPos {l : Nat} (w : BitVec l) (p : Nat) :
    channelFlipPos (channelFlipPos w p) p = w := by
  rw [channelFlipPos, channelFlipPos, BitVec.xor_assoc, BitVec.xor_self, BitVec.xor_zero]

/-- 43_decoder.md R118, first case. -/
theorem decodeWord_encodeWord {n : Nat} (hn : 1 ≤ n) (d : BitVec n) :
    (decodeWord (encodeWord d)).syn.toNat = 0 ∧ (decodeWord (encodeWord d)).err = false ∧
      (decodeWord (encodeWord d)).uncorr = false ∧ (decodeWord (encodeWord d)).corr = encodeWord d ∧
      (decodeWord (encodeWord d)).epos.toNat = 0 ∧ (decodeWord (encodeWord d)).dout = d := by
  have hS := toNat_syndromeOf_encodeWord hn d
  obtain ⟨herr, huncorr, hcorr, hepos⟩ := decodeWord_of_syndrome_eq_zero _ hn hS
  refine ⟨hS, herr, huncorr, hcorr, hepos, ?_⟩
  rw [decodeWord_dout, hcorr, extract_encodeWord]

/-- 43_decoder.md R118, second case: the syndrome names the flipped position, which the mask flips back. -/
theorem decodeWord_channelFlipPos {n p : Nat} (hn : 1 ≤ n) (d : BitVec n) (hp : 1 ≤ p ∧ p ≤ codeLen n) :
    (decodeWord (channelFlipPos (encodeWord d) p)).syn.toNat = p ∧
      (decodeWord (channelFlipPos (encodeWord d) p)).err = true ∧
      (decodeWord (channelFlipPos (encodeWord d) p)).uncorr = false ∧
      (decodeWord (channelFlipPos (encodeWord d) p)).corr = encodeWord d ∧
      (decodeWord (channelFlipPos (encodeWord d) p)).epos.toNat = codeLen n - p + 1 ∧
      (decodeWord (channelFlipPos (encodeWord d) p)).dout = d := by
  have hS : (syndromeOf (channelFlipPos (encodeWord d) p)).toNat = p := by
    rw [toNat_syndromeOf_channelFlipPos _ hn hp, toNat_syndromeOf_encodeWord hn, Nat.zero_xor]
  obtain ⟨herr, huncorr, hcorr, hepos⟩ :=
    decodeWord_of_syndrome_in_word _ hn (hS.symm ▸ hp.1) (hS.symm ▸ hp.2)
  rw [hS, channelFlipPos_channelFlipPos] at hcorr
  rw [hS] at hepos
  refine ⟨hS, herr, huncorr, hcorr, hepos, ?_⟩
  rw [decodeWord_dout, hcorr, extract_encodeWord]

/-- A word that a decoder of the same payload width receives is one its own width's encoder and channel give: the
statements compare the two modules' words as numbers. -/
theorem exists_payload_of_width_eq {m n : Nat} (h : m = n) (channel : ∀ {l : Nat}, BitVec l → BitVec l) (d : BitVec n)
    {rx : BitVec (codeLen m)} (hrx : rx.toNat = (channel (encodeWord d)).toNat) :
    ∃ d' : BitVec m, d'.toNat = d.toNat ∧ (encodeWord d').toNat = (encodeWord d).toNat ∧
      rx = channel (encodeWord d') := by
  subst h
  exact ⟨d, rfl, rfl, BitVec.eq_of_toNat_eq hrx⟩

/-- Settles O38. -/
theorem cleanWordDecodesToItself : Obligations.CleanWordDecodesToItself := by
  intro s henc hdec hwidth
  refine ⟨encodeWord s.enc.d, exec_encode henc, fun rx hrx => ?_⟩
  obtain ⟨d, hd, -, rfl⟩ := exists_payload_of_width_eq hwidth (fun w => w) s.enc.d hrx
  obtain ⟨hsyn, herr, huncorr, hcorr, hepos, hdout⟩ := decodeWord_encodeWord (one_le_decoderN hdec) d
  exact ⟨decodeWord (encodeWord d), exec_decode hdec, hsyn, herr, huncorr, hcorr, hepos, by rw [hdout, hd]⟩

/-- 43_decoder.md R118: DECODE on what ENCODE put out with position p flipped. -/
theorem exec_decode_of_single_flip {s : State} (hdec : DecBuilt s.params) (hwidth : decoderN s.params = s.params.n)
    {rx : BitVec (codeLen (decoderN s.params))} {p : Nat} (hp : 1 ≤ p ∧ p ≤ codeLen s.params.n)
    (hrx : rx.toNat = (channelFlipPos (encodeWord s.enc.d) p).toNat) :
    ∃ q, exec .decode { s with dec := { s.dec with rx := rx } } = .next { s with dec := q } ∧
      q.syn.toNat = p ∧ q.err = true ∧ q.uncorr = false ∧ q.corr.toNat = (encodeWord s.enc.d).toNat ∧
      q.epos.toNat = codeLen s.params.n - p + 1 ∧ q.dout.toNat = s.enc.d.toNat := by
  obtain ⟨d, hd, hcw, rfl⟩ := exists_payload_of_width_eq hwidth (fun w => channelFlipPos w p) s.enc.d hrx
  rw [← hwidth] at hp
  obtain ⟨hsyn, herr, huncorr, hcorr, hepos, hdout⟩ := decodeWord_channelFlipPos (one_le_decoderN hdec) d hp
  exact ⟨decodeWord (channelFlipPos (encodeWord d) p), exec_decode hdec, hsyn, herr, huncorr,
    by rw [hcorr, hcw], by rw [hepos, hwidth], by rw [hdout, hd]⟩

/-- Settles O39: a flip of a forward position is one of the position it names, counted from the left again. -/
theorem singleErrorCorrected : Obligations.SingleErrorCorrected := by
  intro s henc hdec hwidth
  refine ⟨encodeWord s.enc.d, exec_encode henc, fun rx => ⟨fun p hlow hhigh hrx => ?position,
    fun f hlow hhigh hrx => ?forward⟩⟩
  case position => exact exec_decode_of_single_flip hdec hwidth ⟨hlow, hhigh⟩ hrx
  case forward =>
    obtain ⟨hposition, hback⟩ : (1 ≤ forwardPos (codeLen s.params.n) f ∧
        forwardPos (codeLen s.params.n) f ≤ codeLen s.params.n) ∧
        codeLen s.params.n - forwardPos (codeLen s.params.n) f + 1 = f := by
      rw [forwardPos]
      omega
    obtain ⟨q, hexec, -, -, -, -, hepos, -⟩ := exec_decode_of_single_flip hdec hwidth hposition hrx
    exact ⟨q, hexec, hepos.trans hback⟩

/-- A flip of `p` is not undone by flips of two other positions. -/
theorem channelFlipPos_other_ne {l p q r : Nat} (w : BitVec l) (hp : 1 ≤ p ∧ p ≤ l) (hq : 1 ≤ q) (hpq : p ≠ q)
    (hr : 1 ≤ r) (hpr : p ≠ r) : channelFlipPos (channelFlipPos (channelFlipPos w p) q) r ≠ w := by
  intro h
  have hbit := congrArg (BitVec.getLsbD · (p - 1)) h
  have hq_other : p - 1 ≠ q - 1 := by omega
  have hr_other : p - 1 ≠ r - 1 := by omega
  simp [getLsbD_channelFlipPos, hp, hq_other, hr_other] at hbit

/-- 43_decoder.md R119, |E| = 2. -/
theorem toNat_syndromeOf_two_flips {n p1 p2 : Nat} (hn : 1 ≤ n) (d : BitVec n) (hp1 : 1 ≤ p1 ∧ p1 ≤ codeLen n)
    (hp2 : 1 ≤ p2 ∧ p2 ≤ codeLen n) :
    (syndromeOf (channelFlipPos (channelFlipPos (encodeWord d) p1) p2)).toNat = p1 ^^^ p2 := by
  rw [toNat_syndromeOf_channelFlipPos _ hn hp2, toNat_syndromeOf_channelFlipPos _ hn hp1,
    toNat_syndromeOf_encodeWord hn, Nat.zero_xor]

/-- The XOR of two positions is neither of them, since neither is 0. -/
theorem xor_ne_of_one_le {p q : Nat} (hp : 1 ≤ p) (hq : 1 ≤ q) : p ^^^ q ≠ p ∧ p ^^^ q ≠ q := by
  constructor
  · intro h
    have hzero : q = 0 := Nat.xor_right_injective (h.trans (Nat.xor_zero p).symm)
    omega
  · intro h
    have hzero : p = 0 := Nat.xor_left_injective (h.trans (Nat.zero_xor q).symm)
    omega

/-- Settles O41: S is the XOR of the two positions, which is neither; so the flip at S cannot undo the one at `p1`. -/
theorem doubleErrorMiscorrectedOrReported : Obligations.DoubleErrorMiscorrectedOrReported := by
  rintro n d p1 p2 q hn hlow1 hhigh1 hlow2 hhigh2 hne rfl
  have hS := toNat_syndromeOf_two_flips hn d ⟨hlow1, hhigh1⟩ ⟨hlow2, hhigh2⟩
  have hS_pos : 1 ≤ p1 ^^^ p2 := Nat.one_le_iff_ne_zero.2 (Nat.xor_ne_zero_iff.2 hne)
  obtain ⟨hS_ne1, hS_ne2⟩ := xor_ne_of_one_le hlow1 hlow2
  simp only [decodeWord_syn, decodeWord_rx, hS]
  refine ⟨trivial, Nat.ne_zero_of_lt hS_pos, ?err, fun hin => ?miscorrected, fun hbeyond => ?reported⟩
  case err =>
    rw [decodeWord_err_eq_true, hS]
    exact Nat.ne_zero_of_lt hS_pos
  case miscorrected =>
    obtain ⟨-, huncorr, hcorr, -⟩ := decodeWord_of_syndrome_in_word _ hn (hS.symm ▸ hS_pos) (hS.symm ▸ hin)
    rw [hS] at hcorr
    refine ⟨huncorr, hS_ne1, hS_ne2, hcorr, ?_⟩
    rw [hcorr]
    exact channelFlipPos_other_ne _ ⟨hlow1, hhigh1⟩ hlow2 hne hS_pos hS_ne1.symm
  case reported =>
    obtain ⟨-, huncorr, hcorr, hepos⟩ := decodeWord_of_syndrome_beyond_word _ hn (hS.symm ▸ hbeyond)
    exact ⟨huncorr, hcorr, BitVec.eq_of_toNat_eq hepos⟩

/-- Settles O42: the three positions cancel in S, so the word is taken as it is, and position 3 carries the first
payload bit. -/
theorem tripleErrorUndetected : Obligations.TripleErrorUndetected := by
  rintro n d q hn rfl
  have hthree : 3 ≤ codeLen n := three_le_of_not_isPow2 (Nat.le_add_right_of_le hn) (isPow2_codeLen hn)
  have hps : ∀ p ∈ [1, 2, 3], 1 ≤ p ∧ p ≤ codeLen n := by
    intro p hp
    have hmem : p = 1 ∨ p = 2 ∨ p = 3 := by simpa using hp
    omega
  have hS : (syndromeOf ([1, 2, 3].foldl channelFlipPos (encodeWord d))).toNat = 0 := by
    rw [toNat_syndromeOf_foldl_channelFlipPos _ hn hps, toNat_syndromeOf_encodeWord hn]
    rfl
  obtain ⟨herr, huncorr, hcorr, hepos⟩ := decodeWord_of_syndrome_eq_zero _ hn hS
  have hdout : (decodeWord ([1, 2, 3].foldl channelFlipPos (encodeWord d))).dout ≠ d := by
    intro hsame
    have hfirst : dpos 0 = 3 := by decide
    have hpayload := getLsbD_encodeWord_data d (dpos_mem_dataPositions hn)
    rw [didx_dpos, hfirst] at hpayload
    have hflipped : ([1, 2, 3].foldl channelFlipPos (encodeWord d)).getLsbD 2 = !d.getLsbD 0 := by
      simp [getLsbD_channelFlipPos, hpayload, hthree]
    have hbit : (extract ([1, 2, 3].foldl channelFlipPos (encodeWord d))).getLsbD 0 = !d.getLsbD 0 := by
      rw [getLsbD_extract, hfirst, decide_eq_true (p := 0 < n) hn, Bool.true_and, hflipped]
    rw [decodeWord_dout, hcorr] at hsame
    rw [hsame] at hbit
    exact (Bool.eq_not_self _).1 hbit
  refine ⟨BitVec.eq_of_toNat_eq hS, herr, huncorr, BitVec.eq_of_toNat_eq hepos, hcorr, fun hsame => hdout ?_, hdout⟩
  rw [decodeWord_dout, hsame, extract_encodeWord]

/-- 95_test_vectors.md, V-DEC for N = 1, word by word. -/
theorem decodeWord_one_majority : ∀ rx : BitVec 3,
    (decodeWord (n := 1) rx).dout.getLsbD 0 =
      (rx.getLsbD 0 && rx.getLsbD 1 || rx.getLsbD 0 && rx.getLsbD 2 || rx.getLsbD 1 && rx.getLsbD 2) ∧
    (decodeWord (n := 1) rx).uncorr = false := by
  decide

/-- Settles O43. -/
theorem smallestCodeIsMajorityVote : Obligations.SmallestCodeIsMajorityVote := by
  rintro rx a b c rfl rfl rfl
  exact decodeWord_one_majority rx

end Sys2Proof.Machine
end

section
/-! PROOFS. 30_encoding.md R61, 60_exceptions.md R132: the written form of a word, read back and refused. -/

namespace Sys2Proof.Machine

/-! ### Reading bits -/

theorem readBit_eq_none_iff {c : Char} : readBit c = none ↔ c ≠ '0' ∧ c ≠ '1' := by
  unfold readBit
  split <;> simp_all

theorem readBits_cons_eq_some_iff {c : Char} {cs : List Char} {bs : List Bit} :
    readBits (c :: cs) = some bs ↔ ∃ b bs', readBit c = some b ∧ readBits cs = some bs' ∧ bs = b :: bs' := by
  rw [readBits]
  cases readBit c <;> cases readBits cs <;> simp [eq_comm]

theorem readBits_cons_eq_none_iff {c : Char} {cs : List Char} :
    readBits (c :: cs) = none ↔ readBit c = none ∨ readBits cs = none := by
  rw [readBits]
  cases readBit c <;> cases readBits cs <;> simp

/-- 60_exceptions.md R132: only `0` and `1` are read. -/
theorem readBits_eq_none_iff {cs : List Char} : readBits cs = none ↔ ∃ c ∈ cs, c ≠ '0' ∧ c ≠ '1' := by
  induction cs with
  | nil => simp [readBits]
  | cons c cs ih => rw [readBits_cons_eq_none_iff, ih, readBit_eq_none_iff, List.exists_mem_cons_iff]

theorem length_of_readBits_eq_some {cs : List Char} {bs : List Bit} (h : readBits cs = some bs) :
    bs.length = cs.length := by
  induction cs generalizing bs with
  | nil =>
    cases h
    rfl
  | cons c cs ih =>
    obtain ⟨b, bs', -, hcs, rfl⟩ := readBits_cons_eq_some_iff.1 h
    rw [List.length_cons, List.length_cons, ih hcs]

/-- The character of a bit. -/
def digit (b : Bit) : Char :=
  if b then '1' else '0'

theorem readBit_digit (b : Bit) : readBit (digit b) = some b := by
  cases b <;> rfl

theorem readBits_map_digit (bs : List Bit) : readBits (bs.map digit) = some bs := by
  induction bs with
  | nil => rfl
  | cons b bs ih => exact readBits_cons_eq_some_iff.2 ⟨b, bs, readBit_digit b, ih, rfl⟩

/-! ### The value of the written form -/

/-- The first `m` bits of a word, most significant first. -/
def leadingBits {w : Nat} (v : BitVec w) (m : Nat) : List Bit :=
  (List.range m).map fun k => v.getLsbD (w - 1 - k)

theorem writtenOf_eq_map_digit {w : Nat} (v : BitVec w) : writtenOf v = (leadingBits v w).map digit := by
  rw [writtenOf, leadingBits, List.map_map]
  rfl

theorem length_leadingBits {w : Nat} (v : BitVec w) (m : Nat) : (leadingBits v m).length = m := by
  rw [leadingBits, List.length_map, List.length_range]

theorem leadingBits_succ {w : Nat} (v : BitVec w) (m : Nat) :
    leadingBits v (m + 1) = leadingBits v m ++ [v.getLsbD (w - 1 - m)] := by
  rw [leadingBits, List.range_succ, List.map_append]
  rfl

theorem numeral_append_singleton (acc : Nat) (bs : List Bit) (b : Bit) :
    numeral acc (bs ++ [b]) = 2 * numeral acc bs + b.toNat := by
  induction bs generalizing acc with
  | nil => rfl
  | cons c bs ih => exact ih _

/-- The first `m` of `w` bits are the number cut of its low `w - m` bits. -/
theorem numeral_leadingBits {w m : Nat} (v : BitVec w) (hm : m ≤ w) :
    numeral 0 (leadingBits v m) = v.toNat / 2 ^ (w - m) := by
  induction m with
  | zero => exact (Nat.div_eq_of_lt v.isLt).symm
  | succ m ih =>
    obtain ⟨e, he⟩ : ∃ e, w - m = e + 1 := ⟨w - m - 1, by omega⟩
    have hbit : w - 1 - m = e := by omega
    have hrest : w - (m + 1) = e := by omega
    rw [leadingBits_succ, numeral_append_singleton, ih (by omega), he, hbit, hrest, BitVec.getLsbD,
      Nat.toNat_testBit, Nat.pow_succ, ← Nat.div_div_eq_div_mul, Nat.div_add_mod]

/-- 30_encoding.md R61: the written form of a word reads as that word. -/
theorem wordOfWritten_writtenOf {w : Nat} (v : BitVec w) : wordOfWritten w (writtenOf v) = .ok v := by
  have hread : readBits (writtenOf v) = some (leadingBits v w) := by
    rw [writtenOf_eq_map_digit, readBits_map_digit]
  have hvalue : numeral 0 (leadingBits v w) = v.toNat := by
    rw [numeral_leadingBits v le_rfl, Nat.sub_self, Nat.pow_zero, Nat.div_one]
  simp only [wordOfWritten, hread, length_leadingBits, hvalue, if_true, BitVec.ofNat_toNat, BitVec.setWidth_eq]

end Sys2Proof.Machine
end

section
/-! PROOFS. 60_exceptions.md R132, 20_memory.md R45, 70_reset_and_hazards.md R157: the input of a transaction, driven
or refused. -/

namespace Sys2Proof.Machine

open Safety

theorem drive_some_of_buildRefusal_eq_none {u : HwUnit} {cs : List Char} {s : State}
    (h : buildRefusal s.params u = none) : drive u (some cs) s = driveWord u cs s := by
  simp only [drive, h]

theorem driveWord_hamEnc_writtenOf (s : State) (v : BitVec s.params.n) :
    driveWord .hamEnc (writtenOf v) s = .ok { s with enc := { s.enc with d := v } } := by
  simp only [driveWord, wordOfWritten_writtenOf]

theorem driveWord_hamDec_writtenOf (s : State) (v : BitVec (codeLen (decoderN s.params))) :
    driveWord .hamDec (writtenOf v) s = .ok { s with dec := { s.dec with rx := v } } := by
  simp only [driveWord, wordOfWritten_writtenOf]

theorem driveWord_hamSynd_writtenOf (s : State) (v : BitVec s.params.le) :
    driveWord .hamSynd (writtenOf v) s = .ok { s with synd := { s.synd with a := v } } := by
  simp only [driveWord, wordOfWritten_writtenOf]

/-- A transaction that carries an input of a built module is its operation at the driven state. -/
theorem step_of_driveWord_eq_ok {s s₁ : State} {u : HwUnit} {word : List Byte} {cs : List Char}
    {rest : List Transaction} {i : Instr} (hbuilt : UnitBuilt s.params u) (hdecode : decode u word = .ok (i, []))
    (hpending : s.pending = ⟨u, word, some cs⟩ :: rest)
    (hdrive : driveWord u cs { s with pending := rest } = .ok s₁) : step s = exec i s₁ := by
  have hinput := drive_some_of_buildRefusal_eq_none (cs := cs) (s := { s with pending := rest })
    (buildRefusal_eq_none_iff.2 hbuilt)
  exact step_of_drive_eq_ok hpending hdecode (hinput.trans hdrive)

/-- Settles O6: the word driven is the one whose written form the transaction carries. -/
theorem stepDrivesWrittenWord : Obligations.StepDrivesWrittenWord := by
  intro s word rest
  refine ⟨fun v hbuilt hdecode hpending => ?enc, fun v hbuilt hdecode hpending => ?dec,
    fun v i hbuilt hdecode hpending => ?synd⟩
  case enc =>
    exact step_of_driveWord_eq_ok (u := .hamEnc) hbuilt hdecode hpending
      (driveWord_hamEnc_writtenOf { s with pending := rest } v)
  case dec =>
    exact step_of_driveWord_eq_ok (u := .hamDec) hbuilt hdecode hpending
      (driveWord_hamDec_writtenOf { s with pending := rest } v)
  case synd =>
    exact step_of_driveWord_eq_ok (u := .hamSynd) hbuilt hdecode hpending
      (driveWord_hamSynd_writtenOf { s with pending := rest } v)

/-- Driving a word is refused only for the word, at the width of the module's port. -/
theorem driveWord_eq_error {u : HwUnit} {cs : List Char} {s : State} {r : Refusal} :
    driveWord u cs s = .error r ↔ wordOfWritten (inputWidth s.params u) cs = .error r := by
  cases u <;>
  · simp only [driveWord, inputWidth]
    split <;> simp_all

/-- A transaction of a built module is refused for an input that its port refuses. -/
theorem step_of_wordOfWritten_eq_error {s : State} {t : Transaction} {rest : List Transaction} {i : Instr}
    {cs : List Char} {r : Refusal} (hbuilt : UnitBuilt s.params t.unit) (hpending : s.pending = t :: rest)
    (hdecode : decode t.unit t.word = .ok (i, [])) (hinput : t.input = some cs)
    (hword : wordOfWritten (inputWidth s.params t.unit) cs = .error r) : step s = .refused r := by
  rw [step_of_pending_eq_cons hpending, transact_eq_refused]
  have hcheck := buildRefusal_eq_none_iff.2 hbuilt
  exact .inr ⟨⟨i, fetch_eq_ok.2 hdecode⟩,
    drive_eq_error.2 (.inr ⟨hcheck, cs, hinput, driveWord_eq_error.2 hword⟩)⟩

/-- A word of binary characters is read, one bit a character. -/
theorem exists_readBits_eq_some {cs : List Char} (h : ∀ c ∈ cs, c = '0' ∨ c = '1') :
    ∃ bs, readBits cs = some bs ∧ bs.length = cs.length := by
  have hread : readBits cs ≠ none := by
    rw [Ne, readBits_eq_none_iff]
    rintro ⟨c, hc, hzero, hone⟩
    exact (h c hc).elim hzero hone
  obtain ⟨bs, hbs⟩ := Option.ne_none_iff_exists'.1 hread
  exact ⟨bs, hbs, length_of_readBits_eq_some hbs⟩

/-- Settles O7: the port refuses the word, for its characters before its width. -/
theorem boundaryRefusesBadWords : Obligations.BoundaryRefusesBadWords := by
  intro s t rest i cs hbuilt hpending hdecode hinput
  refine ⟨fun hchar => ?char, fun hbinary hwidth => ?width⟩ <;>
    apply step_of_wordOfWritten_eq_error hbuilt hpending hdecode hinput <;>
    rw [wordOfWritten_eq_error]
  case char => exact .inl ⟨readBits_eq_none_iff.2 hchar, rfl⟩
  case width =>
    obtain ⟨bs, hbs, hlen⟩ := exists_readBits_eq_some hbinary
    exact .inr ⟨bs, hbs, hlen ▸ hwidth, rfl⟩

/-- A well-formed word is fetched. -/
theorem exists_fetch_eq_ok {t : Transaction} (h : t.wordOk = true) : ∃ i, fetch t = .ok i := by
  unfold Transaction.wordOk at h
  split at h
  next i rest hdecode =>
    obtain rfl := List.isEmpty_iff.1 h
    exact ⟨i, fetch_eq_ok.2 hdecode⟩
  next => cases h

/-- A well-formed input is no word that its port refuses. -/
theorem wordOfWritten_ne_error_of_inputOk {p : Params} {t : Transaction} {cs : List Char} {r : Refusal}
    (h : t.inputOk p = true) (hinput : t.input = some cs) : wordOfWritten (inputWidth p t.unit) cs ≠ .error r := by
  rw [Transaction.inputOk, hinput, Bool.and_eq_true, decide_eq_true_eq, Option.isSome_iff_exists] at h
  obtain ⟨⟨bs, hread⟩, hlen⟩ := h
  rw [Ne, wordOfWritten_eq_error]
  rintro (⟨hnone, -⟩ | ⟨bs', hsome, hne, -⟩)
  · rw [hread] at hnone
    cases hnone
  · exact hne ((length_of_readBits_eq_some hsome).trans hlen)

/-- A well-formed input of a built module is driven. -/
theorem exists_drive_eq_ok {t : Transaction} {s : State} (hbuilt : UnitBuilt s.params t.unit)
    (h : t.inputOk s.params = true) : ∃ s₁, drive t.unit t.input s = .ok s₁ := by
  have hcheck := buildRefusal_eq_none_iff.2 hbuilt
  cases hdrive : drive t.unit t.input s with
  | ok s₁ => exact ⟨s₁, rfl⟩
  | error r =>
    exfalso
    obtain hrefused | ⟨-, cs, hinput, hword⟩ := drive_eq_error.1 hdrive
    · rw [hcheck] at hrefused
      cases hrefused
    · exact wordOfWritten_ne_error_of_inputOk h hinput (driveWord_eq_error.1 hword)

/-- Driving an input leaves the list of transactions. -/
theorem drive_pending {u : HwUnit} {input : Option (List Char)} {s t : State}
    (h : drive u input s = .ok t) : t.pending = s.pending := by
  obtain ⟨-, ⟨-, rfl⟩ | ⟨cs, -, ⟨-, v, -, rfl⟩ | ⟨-, v, -, rfl⟩ | ⟨-, v, -, rfl⟩⟩⟩ := drive_eq_ok h <;> rfl

/-- Settles O8: the word is fetched, the input driven, and neither that nor the operation touches the list. -/
theorem wellFormedTransactionReturns : Obligations.WellFormedTransactionReturns := by
  intro s t rest hbuilt hwf hpending
  obtain ⟨hword, hinput⟩ := (Bool.and_eq_true _ _).mp hwf
  obtain ⟨i, hfetch⟩ := exists_fetch_eq_ok hword
  obtain ⟨s₁, hdrive⟩ := exists_drive_eq_ok (s := { s with pending := rest }) hbuilt hinput
  refine ⟨evalOf i s₁, ?_, ?_⟩
  · rw [step_of_drive_eq_ok hpending (fetch_eq_ok.1 hfetch) hdrive, exec_of_drive_eq_ok hfetch hdrive]
  · rw [evalOf_pending, drive_pending hdrive]

end Sys2Proof.Machine
end
